-- ==== Sys2Proof/Word.lean ====
section
/-! DEFINITION. The two widths of the machine: every register, cell, address and instruction is 16 bits
(R5, R7 of spec/00_scope.md); a character of the input and output channels is 8 bits (R5, R36). Addition on a
`Word` wraps modulo 2^16, which is R7's arithmetic. -/

namespace Sys2Proof

/-- A 16-bit value: register, cell, address or instruction word (R5, R7). -/
abbrev Word := BitVec 16

/-- An 8-bit character (R5, R36), or a trap vector (R13). -/
abbrev Byte := BitVec 8

end Sys2Proof
end

