-- ==== Sys2Proof/Syntax.lean ====
section
/-! DEFINITION. The instructions, one constructor per row of spec/opcode_table.json (formats R84 of
spec/30_encoding.md). Operands are as the decoder delivers them (R81, R85): register names, single bits, and
immediates and offsets already sign-extended to 16 bits. -/

namespace Sys2Proof

/-- The eight general registers (R20). -/
inductive Reg where
  | r0 | r1 | r2 | r3 | r4 | r5 | r6 | r7
  deriving DecidableEq, Repr

/-- The instructions. The two forms of ADD and AND are two constructors; the six trap services have one each (they
are rows of the table that refine TRAP), and `trap` stands for TRAP with every other vector (log 17). -/
inductive Instr where
  /-- `ADD DR, SR1, SR2` (R121). -/
  | addReg (dr sr1 sr2 : Reg)
  /-- `ADD DR, SR1, #imm5` (R122). -/
  | addImm (dr sr1 : Reg) (imm : Word)
  /-- `AND DR, SR1, SR2` (R123). -/
  | andReg (dr sr1 sr2 : Reg)
  /-- `AND DR, SR1, #imm5` (R124). -/
  | andImm (dr sr1 : Reg) (imm : Word)
  /-- `NOT DR, SR` (R125). -/
  | notReg (dr sr : Reg)
  /-- `BR[n][z][p] #PCoffset9` (R130). -/
  | br (n z p : Bool) (off : Word)
  /-- `JMP BaseR` (R131); RET is `JMP R7`. -/
  | jmp (base : Reg)
  /-- `JSR #PCoffset11` (R132). -/
  | jsr (off : Word)
  /-- `JSRR BaseR` (R133). -/
  | jsrr (base : Reg)
  /-- `LD DR, #PCoffset9` (R141). -/
  | ld (dr : Reg) (off : Word)
  /-- `LDI DR, #PCoffset9` (R142). -/
  | ldi (dr : Reg) (off : Word)
  /-- `LDR DR, BaseR, #offset6` (R143). -/
  | ldr (dr base : Reg) (off : Word)
  /-- `LEA DR, #PCoffset9` (R144). -/
  | lea (dr : Reg) (off : Word)
  /-- `ST SR, #PCoffset9` (R145). -/
  | st (sr : Reg) (off : Word)
  /-- `STI SR, #PCoffset9` (R146). -/
  | sti (sr : Reg) (off : Word)
  /-- `STR SR, BaseR, #offset6` (R147). -/
  | str (sr base : Reg) (off : Word)
  /-- `TRAP xNN` (R160) with a vector that has no service of its own (R167). -/
  | trap (vect : Byte)
  /-- `TRAP x20`, GETC (R161). -/
  | getc
  /-- `TRAP x21`, OUT (R162). -/
  | outChar
  /-- `TRAP x22`, PUTS (R163). -/
  | puts
  /-- `TRAP x23`, IN (R164). -/
  | inChar
  /-- `TRAP x24`, PUTSP (R165). -/
  | putsp
  /-- `TRAP x25`, HALT (R166). -/
  | halt
  /-- `RTI`, opcode 8, unimplemented (R181). -/
  | rti
  /-- `RES`, opcode 13, unimplemented (R182). -/
  | res
  deriving DecidableEq, Repr

end Sys2Proof
end

