-- ==== Sys2Proof/WellFormed.lean ====
section
/-! DEFINITION. The instructions the encoding can express: every immediate and offset is the sign extension of its
field (R8, R85), and `trap` does not stand for a vector that has a constructor of its own (R160, log 17). -/

namespace Sys2Proof

/-- `v` is `sext_n` of some n-bit field (R8): extending its low n bits gives it back. -/
def fitsSigned (n : Nat) (v : Word) : Bool := (v.setWidth n).signExtend 16 == v

/-- The vectors 0x20 to 0x25, which are served (R5, R160). -/
def servedVector (v : Byte) : Bool := 0x20#8 ≤ v && v ≤ 0x25#8

/-- The checks of R85 and R160, one arm per constructor. -/
def Instr.wf : Instr → Bool
  | .addReg _ _ _ => true
  | .addImm _ _ imm => fitsSigned 5 imm
  | .andReg _ _ _ => true
  | .andImm _ _ imm => fitsSigned 5 imm
  | .notReg _ _ => true
  | .br _ _ _ off => fitsSigned 9 off
  | .jmp _ => true
  | .jsr off => fitsSigned 11 off
  | .jsrr _ => true
  | .ld _ off => fitsSigned 9 off
  | .ldi _ off => fitsSigned 9 off
  | .ldr _ _ off => fitsSigned 6 off
  | .lea _ off => fitsSigned 9 off
  | .st _ off => fitsSigned 9 off
  | .sti _ off => fitsSigned 9 off
  | .str _ _ off => fitsSigned 6 off
  | .trap v => !servedVector v
  | .getc => true
  | .outChar => true
  | .puts => true
  | .inChar => true
  | .putsp => true
  | .halt => true
  | .rti => true
  | .res => true

end Sys2Proof
end

