-- ==== Sys2Proof/Decode.lean ====
section
/-! DEFINITION. Sign extension (R8 of spec/00_scope.md), the decoder (R80 to R89 of spec/30_encoding.md), total on
all 65536 words, and the encoder written from the same tables. The opcode numbers (R82) and field positions (R83)
are the spec's decisions D1 and D2, PRESUMED from general knowledge (log 8, log 9). -/

namespace Sys2Proof

/-- `sext_N` of R8: bits 15 down to N are copies of bit N-1. -/
def sext {n : Nat} (f : BitVec n) : Word := f.signExtend 16

/-- A 3-bit register field names R0 to R7 (R20, R83). -/
def Reg.ofBits (b : BitVec 3) : Reg :=
  match b.toFin with
  | 0 => .r0 | 1 => .r1 | 2 => .r2 | 3 => .r3 | 4 => .r4 | 5 => .r5 | 6 => .r6 | 7 => .r7

/-- The number of a register as its 3-bit field. -/
def Reg.bits : Reg → BitVec 3
  | .r0 => 0 | .r1 => 1 | .r2 => 2 | .r3 => 3 | .r4 => 4 | .r5 => 5 | .r6 => 6 | .r7 => 7

/-- Bits [15:12] (R81). -/
def opcodeField (w : Word) : BitVec 4 := w.extractLsb' 12 4

/-- DR, or SR of a store, in bits [11:9] (R83). -/
def fieldDR (w : Word) : Reg := Reg.ofBits (w.extractLsb' 9 3)

/-- SR1, SR of NOT, or BaseR, in bits [8:6] (R83). -/
def fieldBase (w : Word) : Reg := Reg.ofBits (w.extractLsb' 6 3)

/-- SR2 in bits [2:0] (R83). -/
def fieldSR2 (w : Word) : Reg := Reg.ofBits (w.extractLsb' 0 3)

/-- imm5 in bits [4:0], sign-extended (R85). -/
def fieldImm5 (w : Word) : Word := sext (w.extractLsb' 0 5)

/-- offset6 in bits [5:0], sign-extended (R85). -/
def fieldOff6 (w : Word) : Word := sext (w.extractLsb' 0 6)

/-- PCoffset9 in bits [8:0], sign-extended (R85). -/
def fieldOff9 (w : Word) : Word := sext (w.extractLsb' 0 9)

/-- PCoffset11 in bits [10:0], sign-extended (R85). -/
def fieldOff11 (w : Word) : Word := sext (w.extractLsb' 0 11)

/-- trapvect8 in bits [7:0], not extended (R85). -/
def fieldVect (w : Word) : Byte := w.extractLsb' 0 8

/-- TRAP by its vector: the six services of R160, every other vector `trap`. -/
def decodeTrap (v : Byte) : Instr :=
  if v = 0x20#8 then .getc
  else if v = 0x21#8 then .outChar
  else if v = 0x22#8 then .puts
  else if v = 0x23#8 then .inChar
  else if v = 0x24#8 then .putsp
  else if v = 0x25#8 then .halt
  else .trap v

/-- The decoder: by bits [15:12] (the binary column of R82), then bit 5 for ADD and AND and bit 11 for JSR (R81, R82, R84). It reads nothing but
the word, refuses no word, and ignores the bits R86 names. -/
def decode (w : Word) : Instr :=
  match (opcodeField w)[3], (opcodeField w)[2], (opcodeField w)[1], (opcodeField w)[0] with
  | false, false, false, false => .br w[11] w[10] w[9] (fieldOff9 w)
  | false, false, false, true => if w[5] then .addImm (fieldDR w) (fieldBase w) (fieldImm5 w) else .addReg (fieldDR w) (fieldBase w) (fieldSR2 w)
  | false, false, true, false => .ld (fieldDR w) (fieldOff9 w)
  | false, false, true, true => .st (fieldDR w) (fieldOff9 w)
  | false, true, false, false => if w[11] then .jsr (fieldOff11 w) else .jsrr (fieldBase w)
  | false, true, false, true => if w[5] then .andImm (fieldDR w) (fieldBase w) (fieldImm5 w) else .andReg (fieldDR w) (fieldBase w) (fieldSR2 w)
  | false, true, true, false => .ldr (fieldDR w) (fieldBase w) (fieldOff6 w)
  | false, true, true, true => .str (fieldDR w) (fieldBase w) (fieldOff6 w)
  | true, false, false, false => .rti
  | true, false, false, true => .notReg (fieldDR w) (fieldBase w)
  | true, false, true, false => .ldi (fieldDR w) (fieldOff9 w)
  | true, false, true, true => .sti (fieldDR w) (fieldOff9 w)
  | true, true, false, false => .jmp (fieldBase w)
  | true, true, false, true => .res
  | true, true, true, false => .lea (fieldDR w) (fieldOff9 w)
  | true, true, true, true => decodeTrap (fieldVect w)

/-- The instruction the decoder reads from a table row's word: every instruction is exactly one 16-bit word (R80), so
a row of more than 16 bits is none, and no 16-bit word is refused (R81). -/
def decodeTableWord (nbits w : Nat) : Option Instr :=
  if nbits ≤ 16 then some (decode (BitVec.ofNat 16 (w % 2 ^ nbits))) else none

/-- The opcode number of each instruction (R82). -/
def Instr.opcode : Instr → BitVec 4
  | .br _ _ _ _ => 0
  | .addReg _ _ _ => 1
  | .addImm _ _ _ => 1
  | .ld _ _ => 2
  | .st _ _ => 3
  | .jsr _ => 4
  | .jsrr _ => 4
  | .andReg _ _ _ => 5
  | .andImm _ _ _ => 5
  | .ldr _ _ _ => 6
  | .str _ _ _ => 7
  | .rti => 8
  | .notReg _ _ => 9
  | .ldi _ _ => 10
  | .sti _ _ => 11
  | .jmp _ => 12
  | .res => 13
  | .lea _ _ => 14
  | .trap _ => 15
  | .getc => 15
  | .outChar => 15
  | .puts => 15
  | .inChar => 15
  | .putsp => 15
  | .halt => 15

/-- The format with fields at [11:9], [8:6] and [5:0] (R84): ADD, AND, NOT, JMP, JSRR, LDR, STR. -/
def format336 (hi mid : BitVec 3) (low : BitVec 6) : BitVec 12 := hi ++ mid ++ low

/-- The format with fields at [11:9] and [8:0] (R84): BR, LD, LDI, LEA, ST, STI. -/
def format39 (hi : BitVec 3) (low : BitVec 9) : BitVec 12 := hi ++ low

/-- The format with fields at [11] and [10:0] (R84): JSR. -/
def format111 (hi : BitVec 1) (low : BitVec 11) : BitVec 12 := hi ++ low

/-- The format with fields at [11:8] and [7:0] (R84): TRAP. -/
def format48 (hi : BitVec 4) (low : BitVec 8) : BitVec 12 := hi ++ low

/-- Bits [5:0] of the register form of ADD and AND: bit 5 = 0, [4:3] ignored, SR2 (R84). -/
def lowSR2 (r : Reg) : BitVec 6 := 0#3 ++ r.bits

/-- Bits [5:0] of the immediate form of ADD and AND: bit 5 = 1, imm5 (R84). -/
def lowImm5 (imm : Word) : BitVec 6 := 1#1 ++ imm.setWidth 5

/-- The n, z, p bits of BR, n at bit 11 (R83). -/
def branchBits (n z p : Bool) : BitVec 3 := BitVec.ofBool n ++ BitVec.ofBool z ++ BitVec.ofBool p

/-- Bits [11:0] of an instruction's word, from the formats of R84. Ignored bits are written as an assembler
conventionally writes them (R86): 0, and 111111 for NOT (PRESUMED, log 16). -/
def Instr.operandBits : Instr → BitVec 12
  | .addReg d s t => format336 d.bits s.bits (lowSR2 t)
  | .addImm d s imm => format336 d.bits s.bits (lowImm5 imm)
  | .andReg d s t => format336 d.bits s.bits (lowSR2 t)
  | .andImm d s imm => format336 d.bits s.bits (lowImm5 imm)
  | .notReg d s => format336 d.bits s.bits 0x3F
  | .br n z p off => format39 (branchBits n z p) (off.setWidth 9)
  | .jmp b => format336 0 b.bits 0
  | .jsr off => format111 1 (off.setWidth 11)
  | .jsrr b => format336 0 b.bits 0
  | .ld d off => format39 d.bits (off.setWidth 9)
  | .ldi d off => format39 d.bits (off.setWidth 9)
  | .ldr d b off => format336 d.bits b.bits (off.setWidth 6)
  | .lea d off => format39 d.bits (off.setWidth 9)
  | .st s off => format39 s.bits (off.setWidth 9)
  | .sti s off => format39 s.bits (off.setWidth 9)
  | .str s b off => format336 s.bits b.bits (off.setWidth 6)
  | .trap v => format48 0 v
  | .getc => format48 0 0x20
  | .outChar => format48 0 0x21
  | .puts => format48 0 0x22
  | .inChar => format48 0 0x23
  | .putsp => format48 0 0x24
  | .halt => format48 0 0x25
  | .rti => 0
  | .res => 0

/-- The word of an instruction: opcode in bits [15:12], operands below (R80, R84). -/
def encode (i : Instr) : Word := i.opcode ++ i.operandBits

end Sys2Proof
end

