-- ==== Sys2Proof/Config.lean ====
section
/-! DEFINITION. The parameters the spec leaves OPEN (R5 of spec/00_scope.md, D4, D5, D14). They are data, carried
unchanged in the machine's state, so that a statement about every state is a statement about every value of them.
Beside them stand the two free values of the model: what an environment that the state leaves open answers (R10, R221,
log 4). No result of an instruction is free: the spec states every one. -/

namespace Sys2Proof

/-- `UNIMPL_POLICY` of R180: what RTI and RES do. -/
inductive UnimplPolicy where
  /-- RTI and RES raise UNIMPLEMENTED_OPCODE (the default). -/
  | fault
  /-- RTI and RES only advance the pc. -/
  | nop
  deriving DecidableEq, Repr

/-- The parameters of R5, fixed for a whole run. -/
structure Config where
  /-- `KBSR_ADDR`, the address of the keyboard status register. -/
  kbsrAddr : Word
  /-- `KBDR_ADDR`, the address of the keyboard data register. -/
  kbdrAddr : Word
  /-- `UNIMPL_POLICY`. -/
  unimplPolicy : UnimplPolicy
  /-- `IN_PROMPT`, written by IN before it reads (R164). -/
  inPrompt : List Byte
  /-- `HALT_NOTICE`, written by HALT (R166). -/
  haltNotice : List Byte
  deriving DecidableEq, Repr

/-- R5: `KBDR_ADDR` "must differ from `KBSR_ADDR`". -/
abbrev Config.wf (c : Config) : Prop := c.kbsrAddr ≠ c.kbdrAddr

/-- The bytes of `Enter a character: ` (default of R5). PRESUMED: the spec marks the text as general knowledge (log 7). -/
def Config.defaultPrompt : List Byte :=
  [0x45, 0x6E, 0x74, 0x65, 0x72, 0x20, 0x61, 0x20] ++
  [0x63, 0x68, 0x61, 0x72, 0x61, 0x63, 0x74, 0x65, 0x72, 0x3A, 0x20]

/-- The bytes of `HALT` and 0x0A (default of R5). PRESUMED (log 7). -/
def Config.defaultNotice : List Byte := [0x48, 0x41, 0x4C, 0x54, 0x0A]

/-- The defaults of R5. The addresses and texts are PRESUMED, the policy is the spec's default (log 7). -/
def Config.default : Config where
  kbsrAddr := 0xFE00
  kbdrAddr := 0xFE02
  unimplPolicy := .fault
  inPrompt := Config.defaultPrompt
  haltNotice := Config.defaultNotice

/-! ### Free values: an open environment (R10, R36, R221)

Every endless sequence of answers of the input channel is a sequence of stretches: some characters other than 0x00, and
then one answer that is either "none available" or the character 0x00; unless from some answer on there are only
characters other than 0x00, for ever. The cut is at the answers that end a string routine which goes round the memory
(R163), so that one step can tell whether such a routine ends (log 14). -/

/-- Stretch `n` of an open environment: its characters (0x00 stands for 0x01 in them) and whether its last answer is the
character 0x00 or "none available"; or `none`: from here on there are only characters other than 0x00. No value of it
is known (log 4). -/
opaque Config.inputStretch : Nat → Option (List Byte × Bool)

/-- Character `n` of an open environment that supplies only characters other than 0x00 from some answer on (0x00 stands
for 0x01). No value of it is known (log 4). -/
opaque Config.endlessCharacter : Nat → Byte

end Sys2Proof
end

