-- ==== Sys2Proof/Machine/State.lean ====
section
/-! DEFINITION. The state of the machine as plain data: the register file, COND, the run state, the fault record, the
memory (spec/10_state.md), what the core is inside of between two steps, the environment it observes (R35 to R38),
and the parameters of R5. `State.reset` is R45's state at run start. -/

namespace Sys2Proof.Machine

/-- R0 to R7 (R20): eight independent 16-bit cells, none hard-wired. -/
structure Regs where
  r0 : Word
  r1 : Word
  r2 : Word
  r3 : Word
  r4 : Word
  r5 : Word
  r6 : Word
  r7 : Word
  deriving DecidableEq, Repr

/-- COND (R26): exactly one of three flags. An enumeration, as R26 allows; `Cond.code` gives the bits (log 10). -/
inductive Cond where
  | negative | zero | positive
  deriving DecidableEq, Repr

/-- The run state (R30). Only `running` takes steps; the other three are terminal. -/
inductive RunState where
  | running
  /-- Normal end: the HALT routine and nothing else (R166). -/
  | halted
  /-- A fatal fault (R186); the fault record says why. -/
  | faulted
  /-- The stop request (R190). -/
  | cancelled
  deriving DecidableEq, Repr

/-- `fault.kind` (R31, R185); `FaultKind.code` gives its number. -/
inductive FaultKind where
  | none | unimplementedOpcode | unknownTrapVector
  deriving DecidableEq, Repr

/-- The fault record (R31). While `kind` is `none` the other two fields have no meaning. -/
structure FaultRecord where
  kind : FaultKind
  /-- The opcode, or the vector. -/
  value : Byte
  /-- The address the faulting instruction was fetched from. -/
  addr : Word
  deriving DecidableEq, Repr

/-- The memory (R33, R50): a list of (address, cell) pairs. The canonical form is `Memory.wf` (Machine/Ops.lean). The
unit of addressing is the 16-bit cell (R50, R60), so the pairs hold cells, not bytes (log 1). -/
structure Memory where
  cells : List (Nat × Word)
  deriving DecidableEq, Repr

/-- What the core is inside of between two steps. `getc` and `inChar` are the input hold (R36, R112, R197); `puts a`
and `putsp a` are a routine that never ends, on its way round the memory and next at `a` (R163, R165, log 14). -/
inductive Activity where
  /-- Between instructions: the next thing done is step 0 of R111. -/
  | idle
  | getc
  | inChar
  | puts (a : Word)
  | putsp (a : Word)
  deriving DecidableEq, Repr

/-- What the environment answers to the questions after the listed ones, for ever (R36, R221, log 4). -/
inductive LaterInput where
  /-- These answers, over and over, beginning with `first`. -/
  | repeating (first : Option Byte) (others : List (Option Byte))
  /-- Left open: the stretches of `Config.inputStretch` from this one on. -/
  | unknown (stretch : Nat)
  /-- Left open, with only characters other than 0x00: those of `Config.endlessCharacter` from this one on. -/
  | unending (index : Nat)
  deriving DecidableEq, Repr

/-- An input that has ended or failed (R36, R59): no character is available, for ever. -/
def LaterInput.ended : LaterInput := .repeating none []

/-- The input channel (R36): the environment's answers to the questions the core will ask, oldest first (`none`: no
character is available now; `some c`: `c` is, and the `InGet` that follows takes it), and where the answers after those
come from. Environment, not the block's own state (log 4). -/
structure InputChannel where
  answers : List (Option Byte)
  later : LaterInput
  deriving DecidableEq, Repr

/-- The stop request (R38): never raised, or raised after so many more samplings; `after 0` is raised, and stays so
(log 5). -/
inductive StopRequest where
  | never
  | after (samplings : Nat)
  deriving DecidableEq, Repr

/-- The whole state. -/
structure State where
  /-- R0 to R7 (R20). -/
  regs : Regs
  /-- PC (R24). -/
  pc : Word
  /-- COND (R26). -/
  cond : Cond
  /-- The run state (R30). -/
  run : RunState
  /-- The fault record (R31). -/
  fault : FaultRecord
  /-- The memory, KBSR and KBDR among its cells (R32, R33, R50). -/
  mem : Memory
  /-- What the core is inside of (R112, R197). -/
  activity : Activity
  /-- The input channel (R36). -/
  input : InputChannel
  /-- The output, oldest byte first (R37). -/
  output : List Byte
  /-- The stop request (R38). -/
  stop : StopRequest
  /-- The parameters of R5, constant during a run. -/
  config : Config
  deriving DecidableEq, Repr

/-- Why a step stops with a fault: no constructor, because no step does. The spec's two faults (R185) are states:
taking one writes the fault record and makes `run` FAULTED (R186), a next state (log 11). Safe: nothing is raised. -/
inductive Fault where
  deriving DecidableEq, Repr

/-- Why a step has no meaning. -/
inductive Refusal where
  /-- Raised by nobody: every instruction has its meaning (R199: "the machine refuses nothing"). Safe. -/
  | notModelled (mnemonic : String)
  deriving DecidableEq, Repr

/-- The state at run start (R45), with nothing loaded and the default parameters. PC (R41), COND (R42), run and
fault.kind (R43), memory (R40) and output (R45) are the spec's; R0 to R7 are zero by DESIGN CHOICE, unsafe, where the
spec gives no value (log 2); the fault record's other fields are zero by DESIGN CHOICE (log 3); that the environment
supplies no input and never stops the core is DESIGN CHOICE (log 6). `State.launch` (Machine/Boot.lean) leaves all of
these open. -/
def State.reset : State where
  regs := ⟨0, 0, 0, 0, 0, 0, 0, 0⟩
  pc := 0x3000
  cond := .zero
  run := .running
  fault := ⟨.none, 0, 0⟩
  mem := ⟨[]⟩
  activity := .idle
  input := ⟨[], .ended⟩
  output := []
  stop := .never
  config := Config.default

end Sys2Proof.Machine
end

