-- ==== Sys2Proof/Machine/Ops.lean ====
section
/-! DEFINITION. The named operations over registers, memory, the two channels and the stop request, and the one
operation that takes a fault. Every meaning is written over these. -/

namespace Sys2Proof.Machine

/-! ### Registers (R20) -/

/-- `x[i]` on the register file. -/
def Regs.get (g : Regs) : Reg → Word
  | .r0 => g.r0
  | .r1 => g.r1
  | .r2 => g.r2
  | .r3 => g.r3
  | .r4 => g.r4
  | .r5 => g.r5
  | .r6 => g.r6
  | .r7 => g.r7

/-- `x[i] <- v` on the register file. -/
def Regs.set (g : Regs) (r : Reg) (v : Word) : Regs :=
  match r with
  | .r0 => { g with r0 := v }
  | .r1 => { g with r1 := v }
  | .r2 => { g with r2 := v }
  | .r3 => { g with r3 := v }
  | .r4 => { g with r4 := v }
  | .r5 => { g with r5 := v }
  | .r6 => { g with r6 := v }
  | .r7 => { g with r7 := v }

/-- `x[i]` (R9, R20). -/
def State.reg (s : State) (r : Reg) : Word := s.regs.get r

/-- `x[i] <- v` (R9, R20). -/
def State.setReg (s : State) (r : Reg) (v : Word) : State := { s with regs := s.regs.set r v }

/-- `pc <- target` (R9, R24). -/
def State.setPc (s : State) (v : Word) : State := { s with pc := v }

/-- A write of COND; only `State.setcc` (Machine/Flags.lean) uses it (R21, R28). -/
def State.setCond (s : State) (c : Cond) : State := { s with cond := c }

/-- A write of the run state (R30). -/
def State.setRun (s : State) (r : RunState) : State := { s with run := r }

/-- What the core is inside of from now on (R112, R197). -/
def State.setActivity (s : State) (a : Activity) : State := { s with activity := a }

/-! ### Memory (R50 to R54) -/

/-- What a cell no one has written reads as: 0x0000, the value at creation (R40). -/
def Memory.unlisted : Word := 0

/-- The canonical form: addresses strictly rising and below 65536, no entry equal to what an unlisted cell reads as. -/
abbrev Memory.wf (m : Memory) : Prop :=
  m.cells.Pairwise (fun c d => c.1 < d.1) ∧ ∀ c ∈ m.cells, c.1 < 65536 ∧ c.2 ≠ Memory.unlisted

/-- The first entry for an address, or what an unlisted cell reads as. -/
def Memory.lookup : List (Nat × Word) → Nat → Word
  | [], _ => Memory.unlisted
  | (b, v) :: rest, a => if b = a then v else Memory.lookup rest a

/-- `MEM[a]` (R9, R50). -/
def Memory.get (m : Memory) (a : Word) : Word := Memory.lookup m.cells a.toNat

/-- An entry put before the first entry of a higher address. -/
def Memory.insert (a : Nat) (v : Word) : List (Nat × Word) → List (Nat × Word)
  | [] => [(a, v)]
  | c :: rest => if a < c.1 then (a, v) :: c :: rest else c :: Memory.insert a v rest

/-- `MEM[a] <- v` (R54): the cell's old entry goes, and a new one is listed unless it would say what an unlisted cell
reads as, so that equal memories are equal lists. -/
def Memory.put (m : Memory) (a v : Word) : Memory :=
  let rest := m.cells.filter (fun c => c.1 != a.toNat)
  ⟨if v = Memory.unlisted then rest else Memory.insert a.toNat v rest⟩

/-- `MEM[a]` of a state, with no side effect (R9). -/
def State.cell (s : State) (a : Word) : Word := s.mem.get a

/-- `MEM[a] <- v` of a state (R9). -/
def State.setCell (s : State) (a v : Word) : State := { s with mem := s.mem.put a v }

/-! ### The input channel, the output channel, the stop request (R36 to R38) -/

/-- A character as a 16-bit value, bits 15:8 zero (`zext_16`, R8). -/
def zext16 (b : Byte) : Word := b.setWidth 16

/-- A character that is not 0x00, for every byte. -/
def nonNul (b : Byte) : Byte := if b = 0 then 1 else b

/-- The last answer of a stretch of an open environment. -/
def stretchEnd (isNul : Bool) : Option Byte := if isNul then some 0 else none

/-- One question to an environment whose listed answers are used up. -/
def LaterInput.ask : LaterInput → Option Byte × InputChannel
  | .repeating x [] => (x, ⟨[], .repeating x []⟩)
  | .repeating x (y :: ys) => (x, ⟨[], .repeating y (ys ++ [x])⟩)
  | .unknown n =>
    match Config.inputStretch n with
    | some ([], isNul) => (stretchEnd isNul, ⟨[], .unknown (n + 1)⟩)
    | some (b :: bs, isNul) =>
      (some (nonNul b), ⟨bs.map (fun d => some (nonNul d)) ++ [stretchEnd isNul], .unknown (n + 1)⟩)
    | none => (some (nonNul (Config.endlessCharacter 0)), ⟨[], .unending 1⟩)
  | .unending n => (some (nonNul (Config.endlessCharacter n)), ⟨[], .unending (n + 1)⟩)

/-- One question to the input channel: the answer `none` is `InAvail() = false`; `some c` is `InAvail() = true`
together with the `InGet()` that follows it and takes `c` (R36). -/
def InputChannel.ask (c : InputChannel) : Option Byte × InputChannel :=
  match c.answers with
  | [] => c.later.ask
  | x :: rest => (x, { c with answers := rest })

/-- The input channel after a question. -/
def State.setInput (s : State) (c : InputChannel) : State := { s with input := c }

/-- `OutPut` of some bytes, in order (R37): the output only grows. -/
def State.emit (s : State) (bs : List Byte) : State := { s with output := s.output ++ bs }

/-- Whether a sampling of the stop request finds it raised (R38). -/
def StopRequest.raised : StopRequest → Bool
  | .never => false
  | .after n => n == 0

/-- The stop request after a sampling: one sampling nearer to being raised, and raised for good once raised (R38). -/
def StopRequest.tick : StopRequest → StopRequest
  | .never => .never
  | .after n => .after (n - 1)

/-- The stop request after a sampling, in the state. -/
def State.setStop (s : State) (r : StopRequest) : State := { s with stop := r }

/-! ### The access primitives (R53, R54) -/

/-- The poll that a read of KBSR makes (R53, R56): a key, if there is one, is taken into KBDR. -/
def State.polled (s : State) : State :=
  match s.input.ask with
  | (some c, rest) =>
    ((s.setInput rest).setCell s.config.kbsrAddr 0x8000).setCell s.config.kbdrAddr (zext16 c)
  | (none, rest) => (s.setInput rest).setCell s.config.kbsrAddr 0x0000

/-- The side effect of a read at `a`: the poll at `KBSR_ADDR`, nothing elsewhere (R53, R57). -/
def State.touch (s : State) (a : Word) : State := if a = s.config.kbsrAddr then s.polled else s

/-- `MemRead(a, 16)` (R53): the side effect first, then the cell. -/
def State.memRead (s : State) (a : Word) : Word × State := ((s.touch a).cell a, s.touch a)

/-- `MemWrite(a, 16, v)` (R54): a plain store, at `KBSR_ADDR` and `KBDR_ADDR` too (R58). -/
def State.memWrite (s : State) (a v : Word) : State := s.setCell a v

/-! ### Taking a fault (R186) -/

/-- `raise` of R186: the record is written, with the address the instruction was fetched from, and the core is FAULTED.
Nothing else changes, no handler is entered. There is no return from a fault (R189), so no operation undoes it. -/
def State.raise (s : State) (kind : FaultKind) (value : Byte) : State :=
  { s with fault := ⟨kind, value, s.pc - 1⟩, run := .faulted }

/-- The number of `fault.kind` (R31). -/
def FaultKind.code : FaultKind → BitVec 2
  | .none => 0
  | .unimplementedOpcode => 1
  | .unknownTrapVector => 2

end Sys2Proof.Machine
end

