-- ==== Sys2Proof/Machine/Operands.lean ====
section
/-! DEFINITION. The addressing modes (spec/43_load_store.md) and the bytes of a cell. The pc every operand sees is
already incremented (R113). All sums wrap modulo 2^16 (R7, R64). Immediates need no operation: the decoder delivers
them sign-extended (R85). -/

namespace Sys2Proof.Machine

/-- PC-relative: `pc + sext(offset)` (R113, R141): BR, JSR, LD, LDI, LEA, ST, STI. -/
def State.pcRel (s : State) (off : Word) : Word := s.pc + off

/-- Base plus offset: `x[BaseR] + sext_6(offset6)` (R143, R147). -/
def State.baseRel (s : State) (base : Reg) (off : Word) : Word := s.reg base + off

/-- PC-relative indirect (R142, R146): one `MemRead` of the pointer, whose value is the address. -/
def State.pointer (s : State) (off : Word) : Word × State := s.memRead (s.pcRel off)

/-- Bits 7:0 of a cell or register, the character (R60). -/
def lowByte (w : Word) : Byte := w.extractLsb' 0 8

/-- Bits 15:8 of a cell, PUTSP's second character (R60, R165). -/
def highByte (w : Word) : Byte := w.extractLsb' 8 8

end Sys2Proof.Machine
end

