-- ==== Sys2Proof/Machine/Flags.lean ====
section
/-! DEFINITION. The condition flags: the update rule (R27 of spec/10_state.md), the write of a destination register
with it (R28, R120, R140), and BR's test (R130 of spec/42_control.md). -/

namespace Sys2Proof.Machine

/-- R27: NEGATIVE if bit 15 is 1, else ZERO if the value is 0, else POSITIVE. -/
def Cond.ofWord (v : Word) : Cond :=
  if v[15] then .negative else if v = 0 then .zero else .positive

/-- The one-hot bits of R26: POSITIVE 0b001, ZERO 0b010, NEGATIVE 0b100 (D3, log 10). -/
def Cond.code : Cond → BitVec 3
  | .positive => 0b001
  | .zero => 0b010
  | .negative => 0b100

/-- `setcc(v)` (R27): COND and nothing else. -/
def State.setcc (s : State) (v : Word) : State := s.setCond (Cond.ofWord v)

/-- `x[DR] <- v` and then `setcc(v)`: how each of the seven flag-setting opcodes ends (R28, R120, R140). -/
def State.writeDest (s : State) (dr : Reg) (v : Word) : State := (s.setReg dr v).setcc v

/-- BR's condition (R130). -/
def branchTaken (n z p : Bool) : Cond → Bool
  | .negative => n
  | .zero => z
  | .positive => p

end Sys2Proof.Machine
end

