-- ==== Sys2Proof/Machine/Control.lean ====
section
/-! DEFINITION. BR, JMP, JSR, JSRR (spec/42_control.md). None writes COND, none reads memory, none faults (R134). -/

namespace Sys2Proof.Machine

/-- The link: `x[7] <- pc` with the incremented pc (R132, R133, R160). -/
def State.link (s : State) : State := s.setReg .r7 s.pc

/-- BR (R130): the target is taken if COND is among the requested flags, else the pc keeps the increment. -/
def execBr (n z p : Bool) (off : Word) (s : State) : Host.Outcome State Fault Refusal :=
  .next (if branchTaken n z p s.cond then s.setPc (s.pcRel off) else s)

/-- JMP, RET among it (R131). -/
def execJmp (base : Reg) (s : State) : Host.Outcome State Fault Refusal :=
  .next (s.setPc (s.reg base))

/-- JSR (R132): link and target from the same incremented pc. -/
def execJsr (off : Word) (s : State) : Host.Outcome State Fault Refusal :=
  .next (s.link.setPc (s.pcRel off))

/-- JSRR (R133): the link first, then BaseR from the register file with R7 already written, so that `JSRR R7` falls
through (D7, log 15). -/
def execJsrr (base : Reg) (s : State) : Host.Outcome State Fault Refusal :=
  .next (s.link.setPc (s.link.reg base))

end Sys2Proof.Machine
end

