-- ==== Sys2Proof/Machine/Trap.lean ====
section
/-! DEFINITION. TRAP and its six service routines (spec/44_trap.md). TRAP writes R7 before the vector is looked at
(R160, D8); a routine runs inside the instruction and changes no register but R0 (GETC, IN), not COND, not the pc and,
but for the poll of a read at `KBSR_ADDR`, not memory (R168). -/

namespace Sys2Proof.Machine

/-- GETC's `InGet` (R161): a character, if there is one, goes to R0 with bits 15:8 zero; if there is none the core
holds inside the instruction (R36, R197). -/
def State.tryGetc (s : State) : State :=
  match s.input.ask with
  | (some c, rest) => ((s.setInput rest).setReg .r0 (zext16 c)).setActivity .idle
  | (none, rest) => (s.setInput rest).setActivity .getc

/-- IN after its prompt (R164): a character is echoed and goes to R0; if there is none the core holds. -/
def State.tryIn (s : State) : State :=
  match s.input.ask with
  | (some c, rest) => (((s.setInput rest).emit [c]).setReg .r0 (zext16 c)).setActivity .idle
  | (none, rest) => (s.setInput rest).setActivity .inChar

/-- Which of the two string routines: one character per cell (PUTS) or two (PUTSP). -/
inductive StringMode where
  | puts | putsp
  deriving DecidableEq, Repr

/-- The bytes a non-zero cell emits: PUTS its low byte (R163, D12); PUTSP the low byte, and the high byte unless it is
zero (R165, D13). -/
def StringMode.bytes : StringMode → Word → List Byte
  | .puts, w => [lowByte w]
  | .putsp, w => if highByte w = 0 then [lowByte w] else [lowByte w, highByte w]

/-- The activity of a string routine that goes on at `a` in the next step. -/
def StringMode.activity : StringMode → Word → Activity
  | .puts, a => .puts a
  | .putsp, a => .putsp a

/-- The loop of R163 and R165 from cell `a`: read, stop at a wholly zero cell, else emit and go on at a + 1 (modulo
2^16). After `n` cells with no zero among them the routine is left where it stands; the `n` of `State.stringReads` is
enough for every string that ends (log 14). -/
def stringLoop (mode : StringMode) : Nat → Word → State → State
  | 0, a, s => s.setActivity (mode.activity a)
  | n + 1, a, s =>
    if (s.memRead a).1 = 0 then (s.memRead a).2.setActivity .idle
    else stringLoop mode n (a + 1) ((s.memRead a).2.emit (mode.bytes (s.memRead a).1))

/-- An answer to a poll that ends a string routine which has gone once round a memory with no zero cell: with no
character the poll itself reads zero, and the character 0x00 leaves a zero KBDR (R53). -/
def endsString : Option Byte → Bool
  | none => true
  | some c => c == 0

/-- The place of the first such answer in a list, or past it, if it is known where it stands in what follows. -/
def firstEnding : List (Option Byte) → Option Nat → Option Nat
  | [], later => later
  | x :: rest, later => if endsString x then some 0 else (firstEnding rest later).map (· + 1)

/-- The same in the answers after the listed ones; `none`: there is none, for ever. -/
def LaterInput.firstEnding : LaterInput → Option Nat
  | .repeating x xs => Machine.firstEnding (x :: xs) none
  | .unknown n => (Config.inputStretch n).map (fun p => p.1.length)
  | .unending _ => none

/-- How many questions the channel answers before the first answer that ends a string routine; `none`: for ever. -/
def InputChannel.firstEnding (c : InputChannel) : Option Nat := Machine.firstEnding c.answers c.later.firstEnding

/-- As many reads as a string that ends in this state can take: each round of the address space reads each cell once and
polls once, and the round after the first ending answer meets the zero. If no such answer ever comes, what one round
does not end never ends (R163, log 14). -/
def State.stringReads (s : State) : Nat :=
  match s.input.firstEnding with
  | some k => 65536 * (k + 2)
  | none => 65536

/-- OUT (R162): R0's low byte. -/
def State.serviceOut (s : State) : State := s.emit [lowByte (s.reg .r0)]

/-- PUTS and PUTSP from the cell R0 points at (R163, R165). -/
def State.serviceString (s : State) (mode : StringMode) : State := stringLoop mode s.stringReads (s.reg .r0) s

/-- IN (R164): the prompt, then the character. -/
def State.serviceIn (s : State) : State := (s.emit s.config.inPrompt).tryIn

/-- HALT (R166): the notice, then HALTED. -/
def State.serviceHalt (s : State) : State := (s.emit s.config.haltNotice).setRun .halted

/-- A vector that is not served (R167). -/
def State.serviceUnknown (s : State) (v : Byte) : State := s.raise .unknownTrapVector v

/-- The dispatch of R160 by the vector. -/
def State.trapDispatch (s : State) (v : Byte) : State :=
  if v = 0x20#8 then s.tryGetc
  else if v = 0x21#8 then s.serviceOut
  else if v = 0x22#8 then s.serviceString .puts
  else if v = 0x23#8 then s.serviceIn
  else if v = 0x24#8 then s.serviceString .putsp
  else if v = 0x25#8 then s.serviceHalt
  else s.serviceUnknown v

/-- TRAP (R160), for every vector; the decoder gives the served ones their own constructors (log 17). -/
def execTrap (v : Byte) (s : State) : Host.Outcome State Fault Refusal := .next (s.link.trapDispatch v)

/-- GETC (R161). -/
def execGetc (s : State) : Host.Outcome State Fault Refusal := .next s.link.tryGetc

/-- OUT (R162). -/
def execOutChar (s : State) : Host.Outcome State Fault Refusal := .next s.link.serviceOut

/-- PUTS (R163). -/
def execPuts (s : State) : Host.Outcome State Fault Refusal := .next (s.link.serviceString .puts)

/-- IN (R164). -/
def execInChar (s : State) : Host.Outcome State Fault Refusal := .next s.link.serviceIn

/-- PUTSP (R165). -/
def execPutsp (s : State) : Host.Outcome State Fault Refusal := .next (s.link.serviceString .putsp)

/-- HALT (R166). -/
def execHalt (s : State) : Host.Outcome State Fault Refusal := .next s.link.serviceHalt

end Sys2Proof.Machine
end

