-- ==== Sys2Proof/Machine/Cycle.lean ====
section
/-! DEFINITION. What the step does around the executor (spec/40_instruction_cycle.md): the sampling of the stop request
(R111 step 0, R190), the fetch and increment (R111 steps 1 and 2), and what a core that is inside an instruction does
next (R112, R197). -/

namespace Sys2Proof.Machine

/-- One sampling of the stop request that does not find it raised (R38). -/
def State.sampled (s : State) : State := s.setStop s.stop.tick

/-- R190: the core finds the stop request raised, becomes CANCELLED and stops; an instruction it was inside of is
abandoned where it stood (log 18). -/
def State.cancel (s : State) : State := (s.setRun .cancelled).setActivity .idle

/-- R111 steps 1 and 2: the word at the old pc through `MemRead` (R55), then the increment modulo 2^16 (R24). -/
def State.fetch (s : State) : Word × State :=
  ((s.memRead s.pc).1, (s.memRead s.pc).2.setPc (s.pc + 1))

/-- What a running core inside an instruction does in one step. A hold samples the stop request and, if it is not
raised, asks the input again (R190, R197, log 13); an unending string routine goes on, without a look at the stop request
(R163, R190, log 14). -/
def State.resume (s : State) : State :=
  match s.activity with
  | .idle => s
  | .getc => if s.stop.raised then s.cancel else s.sampled.tryGetc
  | .inChar => if s.stop.raised then s.cancel else s.sampled.tryIn
  | .puts a => stringLoop .puts s.stringReads a s
  | .putsp a => stringLoop .putsp s.stringReads a s

/-- Where the next fetch reads the cell at the pc and not what a poll makes of it: a pc at `KBSR_ADDR` moved on by
one. Used to place an instruction (log 19); no step uses it. -/
def State.plainPc (s : State) : Word := if s.pc = s.config.kbsrAddr then s.pc + 1 else s.pc

/-- A state that runs the word `w` next: running, between instructions, no stop request at hand, and `w` in the cell
the fetch reads (log 19). -/
def State.placeWord (s : State) (w : Word) : State :=
  let placed := (s.setPc s.plainPc).setCell s.plainPc w
  let ready := (placed.setRun .running).setActivity .idle
  if s.stop.raised then ready.setStop .never else ready

end Sys2Proof.Machine
end

