-- ==== Sys2Proof/Machine/LoadStore.lean ====
section
/-! DEFINITION. LD, LDI, LDR, LEA, ST, STI, STR (spec/43_load_store.md). Addresses wrap and all are valid, so none
faults (R140). Every read is a `MemRead`, with the poll at `KBSR_ADDR` (R55). -/

namespace Sys2Proof.Machine

/-- The end of a load: the data read at `ea`, written to DR with the flags (R140). -/
def State.loadInto (s : State) (dr : Reg) (ea : Word) : State :=
  (s.memRead ea).2.writeDest dr (s.memRead ea).1

/-- LD (R141). -/
def execLd (dr : Reg) (off : Word) (s : State) : Host.Outcome State Fault Refusal :=
  .next (s.loadInto dr (s.pcRel off))

/-- LDI (R142): the pointer first, then the data. -/
def execLdi (dr : Reg) (off : Word) (s : State) : Host.Outcome State Fault Refusal :=
  .next ((s.pointer off).2.loadInto dr (s.pointer off).1)

/-- LDR (R143): the address is computed from BaseR's old value, also when DR = BaseR. -/
def execLdr (dr base : Reg) (off : Word) (s : State) : Host.Outcome State Fault Refusal :=
  .next (s.loadInto dr (s.baseRel base off))

/-- LEA (R144): the address itself, and it sets the flags. -/
def execLea (dr : Reg) (off : Word) (s : State) : Host.Outcome State Fault Refusal :=
  .next (s.writeDest dr (s.pcRel off))

/-- ST (R145). -/
def execSt (sr : Reg) (off : Word) (s : State) : Host.Outcome State Fault Refusal :=
  .next (s.memWrite (s.pcRel off) (s.reg sr))

/-- STI (R146): one read of the pointer, then one write. -/
def execSti (sr : Reg) (off : Word) (s : State) : Host.Outcome State Fault Refusal :=
  .next ((s.pointer off).2.memWrite (s.pointer off).1 (s.reg sr))

/-- STR (R147). -/
def execStr (sr base : Reg) (off : Word) (s : State) : Host.Outcome State Fault Refusal :=
  .next (s.memWrite (s.baseRel base off) (s.reg sr))

end Sys2Proof.Machine
end

