-- ==== Sys2Proof/Machine/Unimplemented.lean ====
section
/-! DEFINITION. RTI and RES (spec/45_unimplemented.md): a fault or a documented no-op, by `UNIMPL_POLICY` (R180). -/

namespace Sys2Proof.Machine

/-- What both opcodes do (R181, R182): under `fault` the fault record gets the opcode, under `nop` the pc keeps the
increment and nothing else happens. -/
def State.unimplemented (s : State) (opcode : Byte) : State :=
  match s.config.unimplPolicy with
  | .fault => s.raise .unimplementedOpcode opcode
  | .nop => s

/-- RTI (R181): opcode 8. It returns from nothing (R189). -/
def execRti (s : State) : Host.Outcome State Fault Refusal := .next (s.unimplemented 8)

/-- RES (R182): opcode 13. -/
def execRes (s : State) : Host.Outcome State Fault Refusal := .next (s.unimplemented 13)

end Sys2Proof.Machine
end

