-- ==== Sys2Proof/Machine/Step.lean ====
section
/-! DEFINITION. One step (R110 to R112 of spec/40_instruction_cycle.md). A core that is not RUNNING does nothing and
its state does not change (R110, log 12). A running core between instructions does one cycle of R111; one that is
inside an instruction goes on with it. -/

namespace Sys2Proof.Machine

/-- R111: step 0, then fetch, increment, decode, execute. -/
def cycle (s : State) : Host.Outcome State Fault Refusal :=
  if s.stop.raised then .next s.cancel
  else exec (decode s.sampled.fetch.1) s.sampled.fetch.2

/-- One step of the machine. -/
def step (s : State) : Host.Outcome State Fault Refusal :=
  match s.run with
  | .running =>
    match s.activity with
    | .idle => cycle s
    | .getc => .next s.resume
    | .inChar => .next s.resume
    | .puts _ => .next s.resume
    | .putsp _ => .next s.resume
  | .halted => .next s
  | .faulted => .next s
  | .cancelled => .next s

/-- `s` with the table word placed where the next step fetches (log 19). -/
def State.withFetchWord (s : State) (nbits w : Nat) : State := s.placeWord (BitVec.ofNat 16 (w % 2 ^ nbits))

end Sys2Proof.Machine
end

