-- ==== Sys2Proof/Machine/Boot.lean ====
section
/-! DEFINITION. From creation to run start (R210 to R213 of spec/70_reset_and_hazards.md): the load port's writes, the
writes an image makes, and the launch state of R45 with everything the spec leaves open as an argument. -/

namespace Sys2Proof.Machine

/-- The load port (R39, R211): plain writes, in the order given, a later one over an earlier one. -/
def Memory.load (m : Memory) : List (Word × Word) → Memory
  | [] => m
  | (a, v) :: rest => (m.put a v).load rest

/-- The words of a big-endian byte stream (R60, R211). An odd trailing byte is not stated (N14): `none`. -/
def imageWords : List Byte → Option (List Word)
  | [] => some []
  | [_] => none
  | hi :: lo :: rest => (imageWords rest).map (fun ws => (hi ++ lo) :: ws)

/-- `MEM[origin + k] <- word k` for the words that do not pass 0xFFFF (R211). -/
def placeWords (origin : Nat) : List Word → List (Word × Word)
  | [] => []
  | w :: rest =>
    if origin < 65536 then (BitVec.ofNat 16 origin, w) :: placeWords (origin + 1) rest else []

/-- The writes an image file's bytes ask of the load port (R211); `none` where N14 says the file is not described. -/
def imageWrites (bytes : List Byte) : Option (List (Word × Word)) :=
  match imageWords bytes with
  | some (origin :: words) => some (placeWords origin.toNat words)
  | _ => none

/-- The state at run start (R45): the registers, the loaded writes, the environment and the parameters are the
arguments; the rest is R40 to R43's. The fault record's two meaningless fields are zero (log 3). -/
def State.launch (regs : Regs) (writes : List (Word × Word)) (input : InputChannel) (stop : StopRequest)
    (config : Config) : State where
  regs := regs
  pc := 0x3000
  cond := .zero
  run := .running
  fault := ⟨.none, 0, 0⟩
  mem := Memory.load ⟨[]⟩ writes
  activity := .idle
  input := input
  output := []
  stop := stop
  config := config

end Sys2Proof.Machine
end

