-- ==== Sys2Proof/Safety.lean ====
section
/-! DEFINITION. The terms statements are made in: the invariant of every run, what counts as an end of a run and as a
successful one (R218 of spec/70_reset_and_hazards.md), what an instruction keeps, what a read does (R53), and the run
of a string routine (R163, R165). -/

namespace Sys2Proof.Machine

/-! ### Runs -/

/-- A run has ended when `run` is not RUNNING (R218). -/
def State.Ended (s : State) : Prop := s.run ≠ .running

/-- A run is successful exactly when it ended HALTED (R218). -/
def State.Successful (s : State) : Prop := s.run = .halted

/-- Zero or more steps that each answer a next state. -/
inductive Reaches : State → State → Prop where
  | refl (s : State) : Reaches s s
  | step {s t u : State} : Reaches s t → step t = .next u → Reaches s u

/-! ### The invariant -/

/-- What a fault record says, when one was written (R31, R185): the kind, the value it allows, and that the pc is the
faulting instruction's address plus one; an unknown vector has also linked in R7 (R160, R167). -/
def State.FaultRecordOk (s : State) : Prop :=
  match s.fault.kind with
  | .none => True
  | .unimplementedOpcode =>
    s.config.unimplPolicy = .fault ∧ (s.fault.value = 8 ∨ s.fault.value = 13) ∧ s.pc = s.fault.addr + 1
  | .unknownTrapVector =>
    servedVector s.fault.value = false ∧ s.pc = s.fault.addr + 1 ∧ s.reg .r7 = s.pc

/-- The invariant of every run: the memory is canonical, the parameters are legal, the fault record is written exactly
in FAULTED and says something legal, a core inside an instruction is RUNNING and inside a TRAP (R7 is its link, R160),
and HALTED leaves R7 and PC equal (R166, R218). -/
structure State.Inv (s : State) : Prop where
  memory : s.mem.wf
  config : s.config.wf
  record : s.fault.kind = .none ↔ s.run ≠ .faulted
  recordOk : s.FaultRecordOk
  inside : s.activity ≠ .idle → s.run = .running ∧ s.reg .r7 = s.pc
  halted : s.run = .halted → s.reg .r7 = s.pc

/-! ### Frames -/

/-- No general register but the listed ones has changed. -/
def KeepsRegs (except : List Reg) (s t : State) : Prop := ∀ r, r ∉ except → t.reg r = s.reg r

/-- Every cell of memory reads as before. -/
def KeepsMemory (s t : State) : Prop := ∀ a, t.cell a = s.cell a

/-- Every cell of memory but the one at `a` reads as before. -/
def KeepsMemoryBut (a : Word) (s t : State) : Prop := ∀ b, b ≠ a → t.cell b = s.cell b

/-- The run state, the fault record, what the core is inside of, the stop request and the parameters are unchanged. -/
def KeepsControl (s t : State) : Prop :=
  t.run = s.run ∧ t.fault = s.fault ∧ t.activity = s.activity ∧ t.stop = s.stop ∧ t.config = s.config

/-- The input and output channels are unchanged. -/
def KeepsChannels (s t : State) : Prop := t.input = s.input ∧ t.output = s.output

/-- R27's table: which value of COND goes with a value just written to a destination register. -/
def FlagsFor (v : Word) (c : Cond) : Prop :=
  (0x8000 ≤ v.toNat → c = .negative) ∧ (v.toNat = 0 → c = .zero) ∧
    (1 ≤ v.toNat → v.toNat ≤ 0x7FFF → c = .positive)

/-- From `s` to `t` the register `d` got the value `v`, COND goes with it, and nothing else changed. -/
def WritesOnlyDest (d : Reg) (v : Word) (s t : State) : Prop :=
  t.reg d = v ∧ FlagsFor v t.cond ∧ KeepsRegs [d] s t ∧ t.pc = s.pc ∧ KeepsMemory s t ∧ KeepsChannels s t ∧
    KeepsControl s t

/-- From `s` to `t` nothing changed but the pc. -/
def ChangesOnlyPc (s t : State) : Prop :=
  KeepsRegs [] s t ∧ t.cond = s.cond ∧ KeepsMemory s t ∧ KeepsChannels s t ∧ KeepsControl s t

/-- From `s` to `t` the cell at `a` got the value `v` and nothing else changed. -/
def StoresOnly (a v : Word) (s t : State) : Prop :=
  t.cell a = v ∧ KeepsMemoryBut a s t ∧ KeepsRegs [] s t ∧ t.cond = s.cond ∧ t.pc = s.pc ∧ KeepsChannels s t ∧
    KeepsControl s t

/-- What a trap routine leaves alone besides the registers: COND, the pc, the fault record, the stop request and the
parameters (R168). -/
def KeepsUnderTrap (s t : State) : Prop :=
  t.cond = s.cond ∧ t.pc = s.pc ∧ t.fault = s.fault ∧ t.stop = s.stop ∧ t.config = s.config

/-- The destination register of the seven opcodes that write COND (R28). -/
def flagDest : Instr → Option Reg
  | .addReg d _ _ => some d
  | .addImm d _ _ => some d
  | .andReg d _ _ => some d
  | .andImm d _ _ => some d
  | .notReg d _ => some d
  | .ld d _ => some d
  | .ldi d _ => some d
  | .ldr d _ _ => some d
  | .lea d _ => some d
  | .br _ _ _ _ => none
  | .jmp _ => none
  | .jsr _ => none
  | .jsrr _ => none
  | .st _ _ => none
  | .sti _ _ => none
  | .str _ _ _ => none
  | .trap _ => none
  | .getc => none
  | .outChar => none
  | .puts => none
  | .inChar => none
  | .putsp => none
  | .halt => none
  | .rti => none
  | .res => none

/-- The registers each instruction may write (the table of R23). -/
def writtenRegs : Instr → List Reg
  | .addReg d _ _ => [d]
  | .addImm d _ _ => [d]
  | .andReg d _ _ => [d]
  | .andImm d _ _ => [d]
  | .notReg d _ => [d]
  | .ld d _ => [d]
  | .ldi d _ => [d]
  | .ldr d _ _ => [d]
  | .lea d _ => [d]
  | .br _ _ _ _ => []
  | .jmp _ => []
  | .jsr _ => [.r7]
  | .jsrr _ => [.r7]
  | .st _ _ => []
  | .sti _ _ => []
  | .str _ _ _ => []
  | .trap v => if v = 0x20#8 ∨ v = 0x23#8 then [.r0, .r7] else [.r7]
  | .getc => [.r0, .r7]
  | .outChar => [.r7]
  | .puts => [.r7]
  | .inChar => [.r0, .r7]
  | .putsp => [.r7]
  | .halt => [.r7]
  | .rti => []
  | .res => []

/-- The instructions that write the pc beyond its increment (R25). -/
def writesPc : Instr → Bool
  | .br _ _ _ _ => true
  | .jmp _ => true
  | .jsr _ => true
  | .jsrr _ => true
  | .addReg _ _ _ => false
  | .addImm _ _ _ => false
  | .andReg _ _ _ => false
  | .andImm _ _ _ => false
  | .notReg _ _ => false
  | .ld _ _ => false
  | .ldi _ _ => false
  | .ldr _ _ _ => false
  | .lea _ _ => false
  | .st _ _ => false
  | .sti _ _ => false
  | .str _ _ _ => false
  | .trap _ => false
  | .getc => false
  | .outChar => false
  | .puts => false
  | .inChar => false
  | .putsp => false
  | .halt => false
  | .rti => false
  | .res => false

/-- The cell a store instruction stores to, by the address its meaning computes (R145, R146, R147): for STI, the value
of its pointer read. -/
def storeAddress (s : State) : Instr → Option Word
  | .st _ off => some (s.pc + off)
  | .sti _ off => some (s.memRead (s.pc + off)).1
  | .str _ base off => some (s.reg base + off)
  | .addReg _ _ _ => none
  | .addImm _ _ _ => none
  | .andReg _ _ _ => none
  | .andImm _ _ _ => none
  | .notReg _ _ => none
  | .br _ _ _ _ => none
  | .jmp _ => none
  | .jsr _ => none
  | .jsrr _ => none
  | .ld _ _ => none
  | .ldi _ _ => none
  | .ldr _ _ _ => none
  | .lea _ _ => none
  | .trap _ => none
  | .getc => none
  | .outChar => none
  | .puts => none
  | .inChar => none
  | .putsp => none
  | .halt => none
  | .rti => none
  | .res => none

/-- The instructions that read a cell after the fetch (the table of R55). -/
def readsMemory : Instr → Bool
  | .ld _ _ => true
  | .ldi _ _ => true
  | .ldr _ _ _ => true
  | .sti _ _ => true
  | .puts => true
  | .putsp => true
  | .trap v => v == 0x22#8 || v == 0x24#8
  | .addReg _ _ _ => false
  | .addImm _ _ _ => false
  | .andReg _ _ _ => false
  | .andImm _ _ _ => false
  | .notReg _ _ => false
  | .br _ _ _ _ => false
  | .jmp _ => false
  | .jsr _ => false
  | .jsrr _ => false
  | .lea _ _ => false
  | .st _ _ => false
  | .str _ _ _ => false
  | .getc => false
  | .outChar => false
  | .inChar => false
  | .halt => false
  | .rti => false
  | .res => false

/-! ### Reads -/

/-- What a `MemRead` at `a` in `s` may read and leave (R53, R56, R57): `v` is the value read, `t` the state after, of
which only the memory and the input channel are spoken of. -/
def ReadEffect (s : State) (a v : Word) (t : State) : Prop :=
  if a = s.config.kbsrAddr then
    match s.input.ask with
    | (some c, rest) =>
      v = 0x8000 ∧ t.cell s.config.kbsrAddr = 0x8000 ∧ t.cell s.config.kbdrAddr = zext16 c ∧ t.input = rest ∧
        ∀ b, b ≠ s.config.kbsrAddr → b ≠ s.config.kbdrAddr → t.cell b = s.cell b
    | (none, rest) =>
      v = 0x0000 ∧ t.cell s.config.kbsrAddr = 0x0000 ∧ t.input = rest ∧
        ∀ b, b ≠ s.config.kbsrAddr → t.cell b = s.cell b
  else v = s.cell a ∧ t.input = s.input ∧ ∀ b, t.cell b = s.cell b

/-! ### The string routines -/

/-- The instruction that runs a string routine. -/
def StringMode.instr : StringMode → Instr
  | .puts => .puts
  | .putsp => .putsp

/-- R163, R165, one cell at a time: `StringRun mode n a s bs t` when the routine, from cell `a` in state `s`, reads `n`
non-zero cells and then a zero one, each through `MemRead`, emitting the bytes `bs`, and `t` is the state its reads
leave. -/
inductive StringRun (mode : StringMode) : Nat → Word → State → List Byte → State → Prop where
  | stop {a : Word} {s : State} : (s.memRead a).1 = 0 → StringRun mode 0 a s [] (s.memRead a).2
  | more {n : Nat} {a : Word} {s t : State} {bs : List Byte} : (s.memRead a).1 ≠ 0 →
      StringRun mode n (a + 1) (s.memRead a).2 bs t →
      StringRun mode (n + 1) a s (mode.bytes (s.memRead a).1 ++ bs) t

/-- The answer to the question asked after `k` others (R36). -/
def InputChannel.answer (c : InputChannel) : Nat → Option Byte
  | 0 => c.ask.1
  | k + 1 => c.ask.2.answer k

/-- Memory in which no read ever returns zero (R163): no cell but KBSR is zero, and every poll finds a character that
is not 0x00, for ever. -/
structure NoZeroRead (s : State) : Prop where
  cells : ∀ a, a ≠ s.config.kbsrAddr → s.cell a ≠ 0
  polls : ∀ k, ∃ c : Byte, s.input.answer k = some c ∧ c ≠ 0

/-- The state with another `UNIMPL_POLICY` (R183). -/
def State.withPolicy (p : UnimplPolicy) (s : State) : State :=
  { s with config := { s.config with unimplPolicy := p } }

end Sys2Proof.Machine
end

