-- ==== Sys2Proof/Certificates/Slice0/Obligations.lean ====
section
/-! DEFINITION. The statements for the provers. In every statement about `exec` the state `s` is the one step 4 of R111
sees: its pc is already the instruction's address plus one (R113). Statements about every state hold for every value of
the parameters of R5, every register value at run start and every environment, because all of them are fields of the
state. -/

open Sys2Proof Sys2Proof.Machine

/-! ### Encoding (spec/30_encoding.md) -/

/-- The decoder gives back every well-formed instruction from its encoding, whatever its operands. The opcode numbers
and field positions are the spec's decisions D1 and D2 (log 8, log 9); that the six served vectors have constructors of
their own is the model's (log 17). -/
def Obligations.DecodeOfEncodeIsIdentity : Prop := ∀ i : Instr, i.wf = true → decode (encode i) = i

/-- R81: the decoder is total; the kind is chosen by bits [15:12]; opcodes 8 and 13 decode to their own variants rather
than failing; every decoded instruction is one the encoding can express, so its offsets are sign-extended fields. The
opcode numbers are the spec's decision D1 (log 8); that a served vector is never `trap` is the model's (log 17). -/
def Obligations.DecoderIsTotal : Prop :=
  ∀ w : Word,
    (decode w).opcode = w.extractLsb' 12 4 ∧ (decode w).wf = true ∧ decodeTableWord 16 w.toNat = some (decode w) ∧
      (decode w = .rti ↔ w.extractLsb' 12 4 = 8#4) ∧ (decode w = .res ↔ w.extractLsb' 12 4 = 13#4)

/-- Each operand of a decoded word is the field of the word that R83 to R85 name. The positions are the spec's decision
D2 (log 9). -/
def Obligations.DecodedOperandsAreTheFieldsOfTheWord : Prop :=
  ∀ w : Word,
    match decode w with
    | .addReg d a b =>
      w.extractLsb' 12 4 = 1#4 ∧ w[5] = false ∧
        d.bits = w.extractLsb' 9 3 ∧ a.bits = w.extractLsb' 6 3 ∧ b.bits = w.extractLsb' 0 3
    | .addImm d a imm =>
      w.extractLsb' 12 4 = 1#4 ∧ w[5] = true ∧
        d.bits = w.extractLsb' 9 3 ∧ a.bits = w.extractLsb' 6 3 ∧ imm = (w.extractLsb' 0 5).signExtend 16
    | .andReg d a b =>
      w.extractLsb' 12 4 = 5#4 ∧ w[5] = false ∧
        d.bits = w.extractLsb' 9 3 ∧ a.bits = w.extractLsb' 6 3 ∧ b.bits = w.extractLsb' 0 3
    | .andImm d a imm =>
      w.extractLsb' 12 4 = 5#4 ∧ w[5] = true ∧
        d.bits = w.extractLsb' 9 3 ∧ a.bits = w.extractLsb' 6 3 ∧ imm = (w.extractLsb' 0 5).signExtend 16
    | .notReg d a => w.extractLsb' 12 4 = 9#4 ∧ d.bits = w.extractLsb' 9 3 ∧ a.bits = w.extractLsb' 6 3
    | .br n z p off =>
      w.extractLsb' 12 4 = 0#4 ∧ n = w[11] ∧ z = w[10] ∧ p = w[9] ∧ off = (w.extractLsb' 0 9).signExtend 16
    | .jmp b => w.extractLsb' 12 4 = 12#4 ∧ b.bits = w.extractLsb' 6 3
    | .jsr off => w.extractLsb' 12 4 = 4#4 ∧ w[11] = true ∧ off = (w.extractLsb' 0 11).signExtend 16
    | .jsrr b => w.extractLsb' 12 4 = 4#4 ∧ w[11] = false ∧ b.bits = w.extractLsb' 6 3
    | .ld d off =>
      w.extractLsb' 12 4 = 2#4 ∧ d.bits = w.extractLsb' 9 3 ∧ off = (w.extractLsb' 0 9).signExtend 16
    | .ldi d off =>
      w.extractLsb' 12 4 = 10#4 ∧ d.bits = w.extractLsb' 9 3 ∧ off = (w.extractLsb' 0 9).signExtend 16
    | .ldr d b off =>
      w.extractLsb' 12 4 = 6#4 ∧ d.bits = w.extractLsb' 9 3 ∧ b.bits = w.extractLsb' 6 3 ∧
        off = (w.extractLsb' 0 6).signExtend 16
    | .lea d off =>
      w.extractLsb' 12 4 = 14#4 ∧ d.bits = w.extractLsb' 9 3 ∧ off = (w.extractLsb' 0 9).signExtend 16
    | .st r off =>
      w.extractLsb' 12 4 = 3#4 ∧ r.bits = w.extractLsb' 9 3 ∧ off = (w.extractLsb' 0 9).signExtend 16
    | .sti r off =>
      w.extractLsb' 12 4 = 11#4 ∧ r.bits = w.extractLsb' 9 3 ∧ off = (w.extractLsb' 0 9).signExtend 16
    | .str r b off =>
      w.extractLsb' 12 4 = 7#4 ∧ r.bits = w.extractLsb' 9 3 ∧ b.bits = w.extractLsb' 6 3 ∧
        off = (w.extractLsb' 0 6).signExtend 16
    | .trap v =>
      w.extractLsb' 12 4 = 15#4 ∧ v = w.extractLsb' 0 8 ∧ (v.toNat < 0x20 ∨ 0x25 < v.toNat)
    | .getc => w.extractLsb' 12 4 = 15#4 ∧ w.extractLsb' 0 8 = 0x20#8
    | .outChar => w.extractLsb' 12 4 = 15#4 ∧ w.extractLsb' 0 8 = 0x21#8
    | .puts => w.extractLsb' 12 4 = 15#4 ∧ w.extractLsb' 0 8 = 0x22#8
    | .inChar => w.extractLsb' 12 4 = 15#4 ∧ w.extractLsb' 0 8 = 0x23#8
    | .putsp => w.extractLsb' 12 4 = 15#4 ∧ w.extractLsb' 0 8 = 0x24#8
    | .halt => w.extractLsb' 12 4 = 15#4 ∧ w.extractLsb' 0 8 = 0x25#8
    | .rti => w.extractLsb' 12 4 = 8#4
    | .res => w.extractLsb' 12 4 = 13#4

/-- R86: the ignored bits do not matter. `m` flips bits of `w`; where every bit it flips is one R86 names for the form,
the decoded instruction is the same. That they are ignored is the spec's decision D16 (log 16). -/
def Obligations.IgnoredBitsDoNotMatter : Prop :=
  ∀ w m : Word,
    ((w.extractLsb' 12 4 = 1#4 ∨ w.extractLsb' 12 4 = 5#4) → w[5] = false → m &&& 0xFFE7#16 = 0#16 →
      decode (w ^^^ m) = decode w) ∧
    (w.extractLsb' 12 4 = 9#4 → m &&& 0xFFC0#16 = 0#16 → decode (w ^^^ m) = decode w) ∧
    (w.extractLsb' 12 4 = 12#4 → m &&& 0xF1C0#16 = 0#16 → decode (w ^^^ m) = decode w) ∧
    (w.extractLsb' 12 4 = 4#4 → w[11] = false → m &&& 0xF9C0#16 = 0#16 → decode (w ^^^ m) = decode w) ∧
    (w.extractLsb' 12 4 = 15#4 → m &&& 0xF0FF#16 = 0#16 → decode (w ^^^ m) = decode w) ∧
    ((w.extractLsb' 12 4 = 8#4 ∨ w.extractLsb' 12 4 = 13#4) → m &&& 0xF000#16 = 0#16 →
      decode (w ^^^ m) = decode w)

/-- Words the spec writes out (R90, R91, and the examples of the instruction rules) decode to the instructions it says
they are. -/
def Obligations.WordsOfTheSpecDecode : Prop :=
  decode 0x5020 = .andImm .r0 .r0 0 ∧ decode 0x1025 = .addImm .r0 .r0 5 ∧ decode 0xF025 = .halt ∧
    decode 0xE003 = .lea .r0 3 ∧ decode 0xC1C0 = .jmp .r7 ∧ decode 0x03FD = .br false false true 0xFFFD ∧
    decode 0x4803 = .jsr 3 ∧ decode 0x66BF = .ldr .r3 .r2 0xFFFF ∧ decode 0xB205 = .sti .r1 5 ∧
    decode 0x927F = .notReg .r1 .r1

/-- R8: the value of a sign-extended field, for a field of any width up to 16 (5, 6, 9 and 11 among them); `sext_16` of
a 16-bit value is the value; the signed ranges; and `zext_16` of a byte. -/
def Obligations.SignExtensionFollowsTheTopBit : Prop :=
  (∀ (n : Nat) (f : BitVec n), 0 < n → n ≤ 16 →
    (sext f).toNat = if f.getLsbD (n - 1) then f.toNat + (65536 - 2 ^ n) else f.toNat) ∧
  (∀ v : Word, sext v = v) ∧
  (∀ f : BitVec 5, -16 ≤ (sext f).toInt ∧ (sext f).toInt ≤ 15) ∧
  (∀ f : BitVec 6, -32 ≤ (sext f).toInt ∧ (sext f).toInt ≤ 31) ∧
  (∀ f : BitVec 9, -256 ≤ (sext f).toInt ∧ (sext f).toInt ≤ 255) ∧
  (∀ f : BitVec 11, -1024 ≤ (sext f).toInt ∧ (sext f).toInt ≤ 1023) ∧
  (∀ b : Byte, (zext16 b).toNat = b.toNat)

/-! ### Run start (spec/10_state.md, spec/70_reset_and_hazards.md) -/

/-- R40, R41, R42: at run start, whatever was loaded and whatever the registers, the environment and the parameters
are, the pc is 0x3000, COND is ZERO, and a cell no write of the loader named is 0x0000. -/
def Obligations.RunStartPcCondMemory : Prop :=
  ∀ (regs : Regs) (writes : List (Word × Word)) (input : InputChannel) (stop : StopRequest) (config : Config),
    (State.launch regs writes input stop config).pc = 0x3000#16 ∧
    (State.launch regs writes input stop config).cond = .zero ∧
    ∀ a, (∀ w ∈ writes, w.1 ≠ a) → (State.launch regs writes input stop config).cell a = 0#16

/-- R211: the loader's writes are plain writes, a later one over an earlier one, and they change nothing else. -/
def Obligations.LoaderWritesArePlainWrites : Prop :=
  ∀ (regs : Regs) (writes : List (Word × Word)) (input : InputChannel) (stop : StopRequest) (config : Config)
    (a v : Word),
    (State.launch regs (writes ++ [(a, v)]) input stop config).cell a = v ∧
    (∀ b, b ≠ a → (State.launch regs (writes ++ [(a, v)]) input stop config).cell b =
      (State.launch regs writes input stop config).cell b) ∧
    (State.launch regs (writes ++ [(a, v)]) input stop config).pc = 0x3000#16

/-- The reset state is one of the launch states: run RUNNING and fault.kind none (R43), output empty, and the model's
choices for what the spec leaves open: zero in R0 to R7 and in the fault record's meaningless fields (log 2, log 3), no
input and no stop request ever (log 6), the default parameters (log 7). -/
def Obligations.ResetIsALaunchState : Prop :=
  State.reset = State.launch ⟨0, 0, 0, 0, 0, 0, 0, 0⟩ [] ⟨[], .ended⟩ .never Config.default ∧
    State.reset.run = .running ∧ State.reset.fault.kind.code = 0#2 ∧ State.reset.output = [] ∧
    State.reset.activity = .idle

/-! ### Arithmetic and logic (spec/41_alu.md), condition flags (spec/10_state.md) -/

/-- R121. -/
def Obligations.AddRegisterFormResult : Prop :=
  ∀ (d a b : Reg) (s : State),
    ∃ t, exec (.addReg d a b) s = .next t ∧ WritesOnlyDest d (s.reg a + s.reg b) s t

/-- R122, for the sign extension of every 5-bit immediate. -/
def Obligations.AddImmediateFormResult : Prop :=
  ∀ (d a : Reg) (imm5 : BitVec 5) (s : State),
    ∃ t, exec (.addImm d a (sext imm5)) s = .next t ∧ WritesOnlyDest d (s.reg a + sext imm5) s t

/-- R123. -/
def Obligations.AndRegisterFormResult : Prop :=
  ∀ (d a b : Reg) (s : State),
    ∃ t, exec (.andReg d a b) s = .next t ∧ WritesOnlyDest d (s.reg a &&& s.reg b) s t

/-- R124, for the sign extension of every 5-bit immediate. -/
def Obligations.AndImmediateFormResult : Prop :=
  ∀ (d a : Reg) (imm5 : BitVec 5) (s : State),
    ∃ t, exec (.andImm d a (sext imm5)) s = .next t ∧ WritesOnlyDest d (s.reg a &&& sext imm5) s t

/-- R125: the complement, which is 0xFFFF minus the source. -/
def Obligations.NotResult : Prop :=
  ∀ (d a : Reg) (s : State),
    ∃ t, exec (.notReg d a) s = .next t ∧ WritesOnlyDest d (0xFFFF#16 - s.reg a) s t

/-- The document's property E2 (R120): the immediate forms do what the register forms do with a register preloaded to
the sign-extended immediate. -/
def Obligations.ImmediateFormMatchesPreloadedRegister : Prop :=
  ∀ (d a b : Reg) (imm5 : BitVec 5) (s : State), s.reg b = sext imm5 →
    exec (.addImm d a (sext imm5)) s = exec (.addReg d a b) s ∧
    exec (.andImm d a (sext imm5)) s = exec (.andReg d a b) s

/-- R27: the value of COND after `setcc(v)`, and that nothing else changes. -/
def Obligations.FlagUpdateRule : Prop :=
  ∀ (s : State) (v : Word), FlagsFor v (s.setcc v).cond ∧ { s.setcc v with cond := s.cond } = s

/-- R28: COND after an instruction follows the value of the destination register of the seven flag-setting opcodes and
is unchanged by every other; no instruction but BR does anything else when COND has another value; and before the first
of the seven COND is ZERO. -/
def Obligations.CondWrittenBySevenOpcodesReadByOne : Prop :=
  (∀ (i : Instr) (s t : State), exec i s = .next t →
    match flagDest i with
    | some d => FlagsFor (t.reg d) t.cond
    | none => t.cond = s.cond) ∧
  (∀ (i : Instr) (s t : State) (c : Cond), (∀ n z p off, i ≠ .br n z p off) → exec i s = .next t →
    ∃ u, exec i (s.setCond c) = .next u ∧ u = t.setCond (if (flagDest i).isSome then t.cond else c)) ∧
  (∀ (regs : Regs) (writes : List (Word × Word)) (input : InputChannel) (stop : StopRequest) (config : Config),
    (State.launch regs writes input stop config).cond = .zero)

/-- R29: exactly one of the three flags is set, in the one-hot encoding of R26, so a BR with all three flags always
branches and a BR with none never does; and BR's test is the bitwise AND of COND with its three bits (R130). The
encoding is the spec's decision D3 (log 10). -/
def Obligations.BranchTestIsAMaskOfOneHotFlags : Prop :=
  ∀ c : Cond,
    (c.code = 1#3 ∨ c.code = 2#3 ∨ c.code = 4#3) ∧
    (∀ n z p : Bool, branchTaken n z p c = true ↔
      c.code &&& (BitVec.ofBool n ++ BitVec.ofBool z ++ BitVec.ofBool p) ≠ 0#3) ∧
    branchTaken true true true c = true ∧ branchTaken false false false c = false

/-! ### Control transfer (spec/42_control.md) -/

/-- R130: taken exactly when COND is one of the requested flags, to the incremented pc plus the offset; nothing but the
pc changes. -/
def Obligations.BranchResult : Prop :=
  ∀ (n z p : Bool) (pcOffset9 : BitVec 9) (s : State),
    ∃ t, exec (.br n z p (sext pcOffset9)) s = .next t ∧ ChangesOnlyPc s t ∧
      (((n = true ∧ s.cond = .negative) ∨ (z = true ∧ s.cond = .zero) ∨ (p = true ∧ s.cond = .positive)) →
        t.pc = s.pc + sext pcOffset9) ∧
      (¬ ((n = true ∧ s.cond = .negative) ∨ (z = true ∧ s.cond = .zero) ∨ (p = true ∧ s.cond = .positive)) →
        t.pc = s.pc)

/-- R131. -/
def Obligations.JumpResult : Prop :=
  ∀ (base : Reg) (s : State), ∃ t, exec (.jmp base) s = .next t ∧ t.pc = s.reg base ∧ ChangesOnlyPc s t

/-- R132: R7 gets the incremented pc and the target is computed from the same pc. -/
def Obligations.JumpSubroutineResult : Prop :=
  ∀ (pcOffset11 : BitVec 11) (s : State),
    ∃ t, exec (.jsr (sext pcOffset11)) s = .next t ∧ t.reg .r7 = s.pc ∧ t.pc = s.pc + sext pcOffset11 ∧
      KeepsRegs [.r7] s t ∧ t.cond = s.cond ∧ KeepsMemory s t ∧ KeepsChannels s t ∧ KeepsControl s t

/-- R133: R7 gets the incremented pc, and the pc gets BaseR's value; with BaseR = R7, where the order of the two writes
shows, the link is written first, so that `JSRR R7` goes to the next instruction: the spec's decision D7 (log 15). -/
def Obligations.JumpSubroutineRegisterResult : Prop :=
  ∀ (base : Reg) (s : State),
    ∃ t, exec (.jsrr base) s = .next t ∧ t.reg .r7 = s.pc ∧ (base ≠ .r7 → t.pc = s.reg base) ∧
      (base = .r7 → t.pc = s.pc) ∧
      KeepsRegs [.r7] s t ∧ t.cond = s.cond ∧ KeepsMemory s t ∧ KeepsChannels s t ∧ KeepsControl s t

/-- The document's property E5 (R131 to R133): after a JSR or a JSRR, a JMP to R7 in any later state with the same R7
goes to the instruction after the call. -/
def Obligations.ReturnGoesBackToTheInstructionAfterTheCall : Prop :=
  ∀ (off : Word) (base : Reg) (s t u v : State),
    (exec (.jsr off) s = .next t ∨ exec (.jsrr base) s = .next t) → u.reg .r7 = t.reg .r7 →
      exec (.jmp .r7) u = .next v → v.pc = s.pc

/-! ### Loads, stores, LEA (spec/43_load_store.md) -/

/-- R141: one read at the incremented pc plus the offset, the value to DR, COND from it; the memory and the input
change only as the read itself changes them. That the poll takes the character and zero-extends it are the spec's
decisions D11 and D10 (log 21). -/
def Obligations.LoadResult : Prop :=
  ∀ (d : Reg) (pcOffset9 : BitVec 9) (s : State), s.config.wf →
    ∃ t, exec (.ld d (sext pcOffset9)) s = .next t ∧ ReadEffect s (s.pc + sext pcOffset9) (t.reg d) t ∧
      FlagsFor (t.reg d) t.cond ∧ KeepsRegs [d] s t ∧ t.pc = s.pc ∧ t.output = s.output ∧ KeepsControl s t

/-- R142: two reads, the pointer first and then the data at the pointer's value, each with its own effect; DR and COND
from the data. That a poll takes the character and zero-extends it are the spec's decisions D11 and D10 (log 21). -/
def Obligations.LoadIndirectResult : Prop :=
  ∀ (d : Reg) (pcOffset9 : BitVec 9) (s : State), s.config.wf →
    ∃ t u pointer, exec (.ldi d (sext pcOffset9)) s = .next t ∧
      ReadEffect s (s.pc + sext pcOffset9) pointer u ∧ u.config = s.config ∧ ReadEffect u pointer (t.reg d) t ∧
      FlagsFor (t.reg d) t.cond ∧ KeepsRegs [d] s t ∧ t.pc = s.pc ∧ t.output = s.output ∧ KeepsControl s t

/-- R143: one read at BaseR's old value plus the offset. That the poll takes the character and zero-extends it are the
spec's decisions D11 and D10 (log 21). -/
def Obligations.LoadBaseOffsetResult : Prop :=
  ∀ (d base : Reg) (offset6 : BitVec 6) (s : State), s.config.wf →
    ∃ t, exec (.ldr d base (sext offset6)) s = .next t ∧ ReadEffect s (s.reg base + sext offset6) (t.reg d) t ∧
      FlagsFor (t.reg d) t.cond ∧ KeepsRegs [d] s t ∧ t.pc = s.pc ∧ t.output = s.output ∧ KeepsControl s t

/-- R144: the address itself to DR, and COND from it; no cell is read. -/
def Obligations.LoadEffectiveAddressResult : Prop :=
  ∀ (d : Reg) (pcOffset9 : BitVec 9) (s : State),
    ∃ t, exec (.lea d (sext pcOffset9)) s = .next t ∧ WritesOnlyDest d (s.pc + sext pcOffset9) s t

/-- R145. -/
def Obligations.StoreResult : Prop :=
  ∀ (r : Reg) (pcOffset9 : BitVec 9) (s : State),
    ∃ t, exec (.st r (sext pcOffset9)) s = .next t ∧ StoresOnly (s.pc + sext pcOffset9) (s.reg r) s t

/-- R146: one read of the pointer, then one write at the value read, into the memory that the read left. `u` is the
state after the pointer's `MemRead`. That its poll takes the character and zero-extends it are the spec's decisions D11
and D10 (log 21). -/
def Obligations.StoreIndirectResult : Prop :=
  ∀ (r : Reg) (pcOffset9 : BitVec 9) (s : State), s.config.wf →
    ∃ t, exec (.sti r (sext pcOffset9)) s = .next t ∧
      (∀ a u, s.memRead (s.pc + sext pcOffset9) = (a, u) →
        ReadEffect s (s.pc + sext pcOffset9) a u ∧ StoresOnly a (s.reg r) u t) ∧
      KeepsRegs [] s t ∧ t.cond = s.cond ∧ t.pc = s.pc ∧ t.output = s.output ∧ KeepsControl s t

/-- R147. -/
def Obligations.StoreBaseOffsetResult : Prop :=
  ∀ (r base : Reg) (offset6 : BitVec 6) (s : State),
    ∃ t, exec (.str r base (sext offset6)) s = .next t ∧ StoresOnly (s.reg base + sext offset6) (s.reg r) s t

/-! ### Memory and the keyboard registers (spec/20_memory.md) -/

/-- R53: `MemRead` polls at `KBSR_ADDR` before the value is returned and has no effect at any other address; nothing but
the memory and the input channel can change. That the poll takes the character and zero-extends it into KBDR are the
spec's decisions D11 and D10, marked in R56 (log 21). -/
def Obligations.MemoryReadPollsAtKbsrOnly : Prop :=
  ∀ (s : State) (a : Word), s.config.wf →
    ReadEffect s a (s.memRead a).1 (s.memRead a).2 ∧
    { (s.memRead a).2 with mem := s.mem, input := s.input } = s

/-- R54: `MemWrite` stores the value at the address, `KBSR_ADDR` and `KBDR_ADDR` included, and does nothing else. -/
def Obligations.MemoryWriteIsAPlainStore : Prop :=
  ∀ (s : State) (a v : Word),
    (s.memWrite a v).cell a = v ∧ KeepsMemoryBut a s (s.memWrite a v) ∧ { s.memWrite a v with mem := s.mem } = s

/-- R58: a value stored to KBSR is never read back from it, and one stored to KBDR is, by the next read of KBDR; neither
store touches the input channel. -/
def Obligations.StoreToKbsrIsNeverReadBack : Prop :=
  ∀ (s : State) (v : Word), s.config.wf →
    ((s.memWrite s.config.kbsrAddr v).memRead s.config.kbsrAddr).1 = (s.memRead s.config.kbsrAddr).1 ∧
    ((s.memRead s.config.kbsrAddr).1 = 0x8000#16 ∨ (s.memRead s.config.kbsrAddr).1 = 0#16) ∧
    ((s.memWrite s.config.kbdrAddr v).memRead s.config.kbdrAddr).1 = v ∧
    (s.memWrite s.config.kbsrAddr v).input = s.input ∧ (s.memWrite s.config.kbdrAddr v).input = s.input

/-- The memory's canonical form is canonical: two memories in it that read the same everywhere are the same data. The
form is the model's own (log 1). -/
def Obligations.CanonicalMemoriesThatReadAlikeAreEqual : Prop :=
  ∀ m k : Memory, m.wf → k.wf → (∀ a, m.get a = k.get a) → m = k

/-- R68: a store into the very next instruction is what the next step runs, for ST with the offset that reaches it. -/
def Obligations.StoreIsSeenByTheNextFetch : Prop :=
  ∀ (r : Reg) (s t : State), exec (.st r 0) s = .next t → s.run = .running → s.activity = .idle →
    s.stop.raised = false → s.pc ≠ s.config.kbsrAddr →
      step t = exec (decode (s.reg r)) ((t.setStop s.stop.tick).setPc (s.pc + 1))

/-! ### The cycle (spec/40_instruction_cycle.md, spec/60_exceptions.md) -/

/-- R111: a running core between instructions with no stop request raised runs the instruction that the word read at
the pc decodes to, on the state that read leaves with the pc moved on by one; away from `KBSR_ADDR` that word is the
cell at the pc and the read leaves the state as it is. With the stop request raised it becomes CANCELLED without a
fetch: the place of that test in the cycle is the spec's own (step 0, D17). The stop request's countdown is the model's
(log 5). -/
def Obligations.StepRunsTheDecodedInstruction : Prop :=
  ∀ s : State, s.run = .running → s.activity = .idle →
    (s.stop.raised = false →
      step s = exec (decode ((s.setStop s.stop.tick).memRead s.pc).1)
        (((s.setStop s.stop.tick).memRead s.pc).2.setPc (s.pc + 1))) ∧
    (s.stop.raised = false → s.pc ≠ s.config.kbsrAddr →
      step s = exec (decode (s.cell s.pc)) ((s.setStop s.stop.tick).setPc (s.pc + 1))) ∧
    (s.stop.raised = true → step s = .next (s.setRun .cancelled))

/-- R116 and the consequences in R55: a fetch at `KBSR_ADDR` polls, and runs RTI if a key was there and the BR that
never branches if not. -/
def Obligations.FetchAtKbsrRunsWhatThePollReturns : Prop :=
  ∀ (s : State), s.run = .running → s.activity = .idle → s.stop.raised = false → s.config.wf →
    s.pc = s.config.kbsrAddr →
      (∀ c rest, s.input.ask = (some c, rest) →
        ∃ u, step s = exec .rti u ∧ u.pc = s.pc + 1 ∧ u.input = rest ∧ u.cell s.config.kbsrAddr = 0x8000#16 ∧
          u.cell s.config.kbdrAddr = zext16 c ∧ KeepsRegs [] s u ∧ u.cond = s.cond) ∧
      (∀ rest, s.input.ask = (none, rest) →
        ∃ t, step s = .next t ∧ t.run = .running ∧ t.pc = s.pc + 1 ∧ t.input = rest ∧
          t.cell s.config.kbsrAddr = 0#16 ∧
          KeepsMemoryBut s.config.kbsrAddr s t ∧ KeepsRegs [] s t ∧ t.cond = s.cond ∧ t.output = s.output)

/-- R110 (and R214): a core that is not RUNNING does nothing and its state does not change, for ever. -/
def Obligations.EndedRunNeverChanges : Prop :=
  ∀ s : State, s.Ended → step s = .next s ∧ ∀ t, Reaches s t → t = s

/-- R115: `run` leaves RUNNING in exactly three ways: the HALT routine, a fault of TRAP with an unserved vector or of RTI
or RES under the policy `fault`, and the stop request. Which instructions fault are the spec's decisions D5 and D20; the
sampling of the stop request is its D17 and, as a countdown, the model's (log 5). -/
def Obligations.RunEndsInExactlyThreeWays : Prop :=
  ∀ s t : State, s.run = .running → step s = .next t → t.run ≠ .running →
    (t.run = .halted ∧ s.activity = .idle ∧ s.stop.raised = false ∧
      decode ((s.setStop s.stop.tick).memRead s.pc).1 = .halt) ∨
    (t.run = .faulted ∧ s.activity = .idle ∧ s.stop.raised = false ∧
      ((∃ v, (v.toNat < 0x20 ∨ 0x25 < v.toNat) ∧
          decode ((s.setStop s.stop.tick).memRead s.pc).1 = .trap v) ∨
        (s.config.unimplPolicy = .fault ∧
          (decode ((s.setStop s.stop.tick).memRead s.pc).1 = .rti ∨
            decode ((s.setStop s.stop.tick).memRead s.pc).1 = .res)))) ∨
    (t.run = .cancelled ∧ s.stop.raised = true)

/-- R190, R197, R36, R161, R164: what a core holding for input in GETC or IN does in one step. A raised stop request
cancels it, with R0 unwritten and no character consumed; a character ends the hold (IN echoes it); else it goes on
holding. That the stop request is looked at before the input is the model's (log 13), and that a cancelled core is no
longer inside the instruction (log 18). -/
def Obligations.InputHoldEndsByACharacterOrTheStopRequest : Prop :=
  ∀ s : State, s.run = .running → (s.activity = .getc ∨ s.activity = .inChar) →
    ∃ t, step s = .next t ∧ t.pc = s.pc ∧ t.cond = s.cond ∧ KeepsMemory s t ∧ t.fault = s.fault ∧
      t.config = s.config ∧
      (s.stop.raised = true → t.run = .cancelled ∧ KeepsRegs [] s t ∧ KeepsChannels s t) ∧
      (s.stop.raised = false → ∀ c rest, s.input.ask = (some c, rest) →
        t.run = .running ∧ t.activity = .idle ∧ t.input = rest ∧ t.reg .r0 = zext16 c ∧ KeepsRegs [.r0] s t ∧
          (s.activity = .getc → t.output = s.output) ∧ (s.activity = .inChar → t.output = s.output ++ [c])) ∧
      (s.stop.raised = false → ∀ rest, s.input.ask = (none, rest) →
        t.run = .running ∧ t.activity = s.activity ∧ t.input = rest ∧ KeepsRegs [] s t ∧ t.output = s.output)

/-! ### TRAP (spec/44_trap.md) -/

/-- R160: every TRAP, with whatever vector, links the incremented pc in R7; none changes COND or the pc or any register
but R0 and R7 (R168). That R7 is written for an unserved vector too is the spec's decision D8, that routines change no
other register its decision D24. -/
def Obligations.EveryTrapLinksInR7 : Prop :=
  ∀ (i : Instr) (s : State), i.opcode = 15#4 →
    ∃ t, exec i s = .next t ∧ t.reg .r7 = s.pc ∧ t.pc = s.pc ∧ t.cond = s.cond ∧ KeepsRegs [.r0, .r7] s t ∧
      t.stop = s.stop ∧ t.config = s.config

/-- R160's dispatch: a TRAP with a served vector does what that vector's service does, and a word whose bits [15:12]
are 1111 decodes to the service by its bits [7:0]. -/
def Obligations.TrapVectorSelectsTheService : Prop :=
  (∀ s : State,
    exec (.trap 0x20) s = exec .getc s ∧ exec (.trap 0x21) s = exec .outChar s ∧
    exec (.trap 0x22) s = exec .puts s ∧ exec (.trap 0x23) s = exec .inChar s ∧
    exec (.trap 0x24) s = exec .putsp s ∧ exec (.trap 0x25) s = exec .halt s) ∧
  (∀ w : Word, w.extractLsb' 12 4 = 15#4 →
    ∀ s : State, exec (decode w) s = exec (.trap (w.extractLsb' 0 8)) s)

/-- R167: a vector outside 0x20 to 0x25 faults, with the record of R186: kind 2, the vector, the TRAP's own address; R7
is linked and nothing else changes. The record, its address and the link are the spec's decisions D6, D22 and D8. -/
def Obligations.UnservedVectorFaults : Prop :=
  ∀ (v : Byte) (s : State), (v.toNat < 0x20 ∨ 0x25 < v.toNat) →
    ∃ t, exec (.trap v) s = .next t ∧ t.run = .faulted ∧ t.fault.kind.code = 2#2 ∧ t.fault.value = v ∧
      t.fault.addr = s.pc - 1 ∧ t.reg .r7 = s.pc ∧ KeepsRegs [.r7] s t ∧ t.cond = s.cond ∧ t.pc = s.pc ∧
      KeepsMemory s t ∧ KeepsChannels s t ∧ t.activity = s.activity ∧ t.stop = s.stop ∧ t.config = s.config

/-- R161: GETC takes the next character into R0, upper byte zero, with no echo; if none is there it holds inside the
instruction with R0 unwritten. The zero upper byte and the hold are the spec's decisions D10 and D15. -/
def Obligations.GetcTakesACharacterOrHolds : Prop :=
  ∀ s : State,
    ∃ t, exec .getc s = .next t ∧ t.reg .r7 = s.pc ∧ KeepsUnderTrap s t ∧ t.run = s.run ∧ KeepsMemory s t ∧
      t.output = s.output ∧
      (∀ c rest, s.input.ask = (some c, rest) →
        t.reg .r0 = zext16 c ∧ t.input = rest ∧ t.activity = .idle ∧ KeepsRegs [.r0, .r7] s t) ∧
      (∀ rest, s.input.ask = (none, rest) → t.activity = .getc ∧ t.input = rest ∧ KeepsRegs [.r7] s t)

/-- R162: OUT emits exactly R0's low byte. That it completes is the spec's decision D21 (log 22), that it keeps the other
registers its D24 (log 21). -/
def Obligations.OutEmitsTheLowByteOfR0 : Prop :=
  ∀ s : State,
    ∃ t, exec .outChar s = .next t ∧ t.output = s.output ++ [(s.reg .r0).extractLsb' 0 8] ∧ t.reg .r7 = s.pc ∧
      KeepsRegs [.r7] s t ∧ t.cond = s.cond ∧ t.pc = s.pc ∧ KeepsMemory s t ∧ t.input = s.input ∧ KeepsControl s t

/-- R164: IN writes the prompt, then takes a character, echoes it and stores it in R0; if none is there it holds after
the prompt, with R0 unwritten. The prompt's bytes are whatever the parameter holds (D14). -/
def Obligations.InPromptsThenEchoesOrHolds : Prop :=
  ∀ s : State,
    ∃ t, exec .inChar s = .next t ∧ t.reg .r7 = s.pc ∧ KeepsUnderTrap s t ∧ t.run = s.run ∧ KeepsMemory s t ∧
      (∀ c rest, s.input.ask = (some c, rest) →
        t.output = s.output ++ s.config.inPrompt ++ [c] ∧ t.reg .r0 = zext16 c ∧ t.input = rest ∧
          t.activity = .idle ∧ KeepsRegs [.r0, .r7] s t) ∧
      (∀ rest, s.input.ask = (none, rest) →
        t.output = s.output ++ s.config.inPrompt ∧ t.activity = .inChar ∧ t.input = rest ∧ KeepsRegs [.r7] s t)

/-- R163, R165: PUTS and PUTSP over a string of `k` non-zero cells that ends in a zero cell and does not run over
`KBSR_ADDR` emit exactly its characters, in one step: PUTS each cell's low byte, PUTSP its low byte and then its high
byte unless that is zero; the memory, the input and R0 are unchanged. What of a cell is emitted and what ends the
string are the spec's decisions D12 and D13. -/
def Obligations.PlainStringsAreWrittenWhole : Prop :=
  ∀ (s : State) (k : Nat), k < 65536 → s.activity = .idle →
    (∀ j, j < k → s.cell (s.reg .r0 + BitVec.ofNat 16 j) ≠ 0) →
    (∀ j, j ≤ k → s.reg .r0 + BitVec.ofNat 16 j ≠ s.config.kbsrAddr) →
    s.cell (s.reg .r0 + BitVec.ofNat 16 k) = 0 →
      (∃ t, exec .puts s = .next t ∧
        t.output = s.output ++ (List.range k).map
          (fun j => (s.cell (s.reg .r0 + BitVec.ofNat 16 j)).extractLsb' 0 8) ∧
        t.reg .r7 = s.pc ∧ KeepsRegs [.r7] s t ∧ t.cond = s.cond ∧ t.pc = s.pc ∧ KeepsMemory s t ∧
        t.input = s.input ∧ KeepsControl s t) ∧
      (∃ t, exec .putsp s = .next t ∧
        t.output = s.output ++ (List.range k).flatMap
          (fun j => if (s.cell (s.reg .r0 + BitVec.ofNat 16 j)).extractLsb' 8 8 = 0#8
            then [(s.cell (s.reg .r0 + BitVec.ofNat 16 j)).extractLsb' 0 8]
            else [(s.cell (s.reg .r0 + BitVec.ofNat 16 j)).extractLsb' 0 8,
              (s.cell (s.reg .r0 + BitVec.ofNat 16 j)).extractLsb' 8 8]) ∧
        t.reg .r7 = s.pc ∧ KeepsRegs [.r7] s t ∧ t.cond = s.cond ∧ t.pc = s.pc ∧ KeepsMemory s t ∧
        t.input = s.input ∧ KeepsControl s t)

/-- R163, R165, R55, R112: PUTS and PUTSP over every string that ends, however often it goes round the memory and polls,
are one step: every cell is read through `MemRead`, in order, with its poll, and the bytes, the memory and the input are
those of the run of reads `StringRun` describes. A routine is left unfinished by its step only if it never ends, and then
at the cell where it began (log 14). What is emitted and what ends a string are the spec's decisions D12 and D13. -/
def Obligations.StringRoutinesReadThroughMemRead : Prop :=
  ∀ (mode : StringMode) (s : State), s.activity = .idle →
    (∀ (u : State) (n : Nat) (bs : List Byte), StringRun mode n (s.reg .r0) s bs u →
      ∃ t, exec mode.instr s = .next t ∧ t.output = s.output ++ bs ∧
        t.mem = u.mem ∧ t.input = u.input ∧ t.reg .r7 = s.pc ∧ KeepsRegs [.r7] s t ∧ t.cond = s.cond ∧
        t.pc = s.pc ∧ KeepsControl s t) ∧
    ((∀ u n bs, ¬ StringRun mode n (s.reg .r0) s bs u) →
      ∃ t, exec mode.instr s = .next t ∧ t.run = s.run ∧ t.activity = mode.activity (s.reg .r0) ∧
        t.reg .r7 = s.pc ∧ KeepsRegs [.r7] s t ∧ KeepsUnderTrap s t)

/-- R163, R165: "if no cell of memory reads zero the routine never ends", for PUTS and for PUTSP: a core inside the
routine over such a memory is in every later state RUNNING (a hang, not a fault), inside it still, over such a memory
still, and each step writes a round of 65536 cells more (a byte each for PUTS, one or two for PUTSP); and the step that
fetches the TRAP over such a memory leads into the routine, with a round written. That a round is one step is the
model's (log 14). -/
def Obligations.PutsWithNoZeroCellNeverEnds : Prop :=
  (∀ (mode : StringMode) (s : State) (a : Word), s.run = .running → s.activity = mode.activity a → s.config.wf →
    NoZeroRead s → ∀ u, Reaches s u →
      u.run = .running ∧ u.activity = mode.activity a ∧ NoZeroRead u ∧
      ∃ t bs, step u = .next t ∧ t.output = u.output ++ bs ∧ 65536 ≤ bs.length ∧ bs.length ≤ 131072 ∧
        (mode = .puts → bs.length = 65536)) ∧
  (∀ (mode : StringMode) (s : State), s.run = .running → s.activity = .idle → s.stop.raised = false →
    s.config.wf → NoZeroRead s → s.pc ≠ s.config.kbsrAddr → decode (s.cell s.pc) = mode.instr →
      ∃ t bs, step s = .next t ∧ t.run = .running ∧ t.activity = mode.activity (s.reg .r0) ∧ NoZeroRead t ∧
        t.reg .r7 = s.pc + 1 ∧ t.pc = s.pc + 1 ∧ t.output = s.output ++ bs ∧ 65536 ≤ bs.length ∧
        bs.length ≤ 131072 ∧ (mode = .puts → bs.length = 65536))

/-- R166: HALT writes the notice, whatever bytes the parameter holds, and makes `run` HALTED; pc and R7 hold the address
after the TRAP. -/
def Obligations.HaltWritesTheNoticeAndHalts : Prop :=
  ∀ s : State,
    ∃ t, exec .halt s = .next t ∧ t.output = s.output ++ s.config.haltNotice ∧ t.run = .halted ∧
      t.reg .r7 = s.pc ∧ KeepsRegs [.r7] s t ∧ KeepsUnderTrap s t ∧ KeepsMemory s t ∧ t.input = s.input ∧
      t.activity = s.activity

/-! ### RTI, RES and faults (spec/45_unimplemented.md, spec/60_exceptions.md) -/

/-- R180 to R182: RTI and RES fault with kind 1, the opcode (8 or 13) and the instruction's own address under the policy
`fault`, and change nothing under `nop`. Two policies and the default are the spec's decision D5; the record is its D6
and D22. -/
def Obligations.UnimplementedOpcodesFollowThePolicy : Prop :=
  ∀ (i : Instr) (number : Byte), ((i = .rti ∧ number = 8#8) ∨ (i = .res ∧ number = 13#8)) → ∀ s : State,
    ∃ t, exec i s = .next t ∧
      (s.config.unimplPolicy = .fault →
        t.run = .faulted ∧ t.fault.kind.code = 1#2 ∧ t.fault.value = number ∧ t.fault.addr = s.pc - 1 ∧
          KeepsRegs [] s t ∧ t.cond = s.cond ∧ t.pc = s.pc ∧ KeepsMemory s t ∧ KeepsChannels s t ∧
          t.activity = s.activity ∧ t.stop = s.stop ∧ t.config = s.config) ∧
      (s.config.unimplPolicy = .nop → t = s)

/-- R183: a step that does not run opcode 8 or 13 is the same under both policies: a step of a running core between
instructions that fetches another word, and every step of a core that fetches none because the stop request is raised,
because it is inside an instruction, or because its run has ended. The policy is the spec's decision D5. -/
def Obligations.PolicyMattersToRtiAndResOnly : Prop :=
  ∀ (s t : State) (p : UnimplPolicy), step s = .next t →
    (s.run = .running → s.activity = .idle → s.stop.raised = false →
      decode ((s.setStop s.stop.tick).memRead s.pc).1 ≠ .rti ∧
        decode ((s.setStop s.stop.tick).memRead s.pc).1 ≠ .res) →
      step (s.withPolicy p) = .next (t.withPolicy p)

/-- R186: taking a fault writes the record, with the pc minus one, makes `run` FAULTED and changes nothing else. The
record's form is the spec's decisions D6 and D22. -/
def Obligations.FaultEntryWritesTheRecordOnly : Prop :=
  ∀ (s : State) (kind : FaultKind) (value : Byte),
    (s.raise kind value).fault.kind = kind ∧ (s.raise kind value).fault.value = value ∧
    (s.raise kind value).fault.addr + 1 = s.pc ∧ (s.raise kind value).run = .faulted ∧
    { s.raise kind value with fault := s.fault, run := s.run } = s

/-- R187: only TRAP with an unserved vector, and RTI and RES under the policy `fault`, can fault. -/
def Obligations.OnlyTrapRtiResCanFault : Prop :=
  ∀ (i : Instr) (s t : State), exec i s = .next t → s.run ≠ .faulted → t.run = .faulted →
    (∃ v, i = .trap v ∧ (v.toNat < 0x20 ∨ 0x25 < v.toNat)) ∨
      (s.config.unimplPolicy = .fault ∧ (i = .rti ∨ i = .res))

/-! ### The whole machine -/

/-- Every launch state with legal parameters meets the invariant, and so does the reset state. -/
def Obligations.LaunchStatesMeetTheInvariant : Prop :=
  (∀ (regs : Regs) (writes : List (Word × Word)) (input : InputChannel) (stop : StopRequest) (config : Config),
    config.wf → (State.launch regs writes input stop config).Inv) ∧ State.reset.Inv

/-- Every step from a state that meets the invariant leads to one that does: the memory stays canonical, a fault record
is written exactly when the core faults and says what R31 and R185 allow, a core that holds or goes on inside a TRAP
keeps its link (R160), and a HALTED core has R7 = PC (R218). -/
def Obligations.EveryStepKeepsTheInvariant : Prop := ∀ s t : State, s.Inv → step s = .next t → t.Inv

/-- R199: the machine refuses nothing and stops on nothing: every instruction and every step answers a next state. -/
def Obligations.EveryInstructionAndStepAnswersANextState : Prop :=
  (∀ (i : Instr) (s : State), ∃ t, exec i s = .next t) ∧ ∀ s : State, ∃ t, step s = .next t

/-- R37: the output only grows, in every run, and the parameters never change (R5, R180: fixed for the whole run). -/
def Obligations.OutputOnlyGrowsAndParametersStay : Prop :=
  ∀ s t : State, Reaches s t → (∃ bs, t.output = s.output ++ bs) ∧ t.config = s.config

/-- R55, R70, R168: an instruction changes a cell of memory only by a store to the address its meaning computes (ST, STI,
STR), or, in KBSR and KBDR, if it is one that reads memory (LD, LDI, LDR, STI, PUTS, PUTSP), by the poll of a read. Every
other instruction leaves all of memory as it was. -/
def Obligations.MemoryChangesByStoresAndPollsOnly : Prop :=
  ∀ (i : Instr) (s t : State), exec i s = .next t →
    (∀ a, t.cell a ≠ s.cell a →
      storeAddress s i = some a ∨
        (readsMemory i = true ∧ (a = s.config.kbsrAddr ∨ a = s.config.kbdrAddr))) ∧
    (storeAddress s i = none → readsMemory i = false → t.mem = s.mem)

/-- R23, R25: no instruction writes a register the table of R23 does not list for it, and none but BR, JMP, JSR and JSRR
leaves the pc other than incremented. -/
def Obligations.InstructionsWriteOnlyTheListedRegisters : Prop :=
  ∀ (i : Instr) (s t : State), exec i s = .next t →
    KeepsRegs (writtenRegs i) s t ∧ (writesPc i = false → t.pc = s.pc)
end

