-- ==== Sys2Proof/Laws/Decode.lean ====
section
/-! SUPPORT. The register field and its number, the fields of the formats of R84, and where the fields of an encoded word
come from. -/

namespace Sys2Proof

@[simp] theorem Reg.ofBits_bits (r : Reg) : Reg.ofBits r.bits = r := by cases r <;> rfl

@[simp] theorem Reg.bits_ofBits (b : BitVec 3) : (Reg.ofBits b).bits = b := by
  revert b; decide

/-- The low 12 bits of an encoded word are the operand bits. -/
theorem operands_encode (i : Instr) : (encode i).extractLsb' 0 12 = i.operandBits :=
  BitVec.extractLsb'_append_eq_right

/-- A field within bits [11:0] of an encoded word is that field of the operand bits. -/
theorem encode_field (i : Instr) (k n : Nat) (h : k + n ≤ 12) :
    (encode i).extractLsb' k n = i.operandBits.extractLsb' k n := by
  rw [← operands_encode]
  ext j hj
  simp
  omega

/-- A bit within [11:0] of an encoded word is that bit of the operand bits. -/
theorem encode_bit (i : Instr) (k : Nat) (h : k < 12) : (encode i)[k] = i.operandBits[k] := by
  rw [← BitVec.getLsbD_eq_getElem, ← BitVec.getLsbD_eq_getElem, ← operands_encode]
  simp [h]

/-! ### Fields of the formats -/

theorem extract_append_high {m k : Nat} (a : BitVec m) (b : BitVec k) (i n : Nat) (h : k ≤ i) :
    (a ++ b).extractLsb' i n = a.extractLsb' (i - k) n := by
  ext j hj
  have h1 : ¬ i + j < k := by omega
  have h2 : i + j - k = i - k + j := by omega
  simp [BitVec.getLsbD_append, h1, h2]

theorem extract_append_low {m k : Nat} (a : BitVec m) (b : BitVec k) (i n : Nat) (h : i + n ≤ k) :
    (a ++ b).extractLsb' i n = b.extractLsb' i n := by
  ext j hj
  have h1 : i + j < k := by omega
  simp [BitVec.getLsbD_append, h1]

theorem bit_append_high {m k : Nat} (a : BitVec m) (b : BitVec k) (i : Nat) (h : i < m) :
    (a ++ b)[i + k]'(by omega) = a[i] := by
  simp [BitVec.getElem_append]

theorem bit_append_low {m k : Nat} (a : BitVec m) (b : BitVec k) (i : Nat) (h : i < k) :
    (a ++ b)[i]'(by omega) = b[i] := by
  simp [BitVec.getElem_append, h]

section
variable (a b : BitVec 3) (low : BitVec 6) (l : BitVec 9)

@[simp] theorem format336_hi : (format336 a b low).extractLsb' 9 3 = a :=
  (extract_append_high (a ++ b) low 9 3 (by omega)).trans
    ((extract_append_high a b 3 3 (by omega)).trans (by simp))

@[simp] theorem format336_mid : (format336 a b low).extractLsb' 6 3 = b :=
  (extract_append_high (a ++ b) low 6 3 (by omega)).trans
    ((extract_append_low a b 0 3 (by omega)).trans (by simp))

theorem format336_low (i n : Nat) (h : i + n ≤ 6) : (format336 a b low).extractLsb' i n = low.extractLsb' i n :=
  extract_append_low (a ++ b) low i n h

@[simp] theorem format336_bit5 : (format336 a b low)[5] = low[5] := bit_append_low (a ++ b) low 5 (by omega)

@[simp] theorem format336_bit11 : (format336 a b low)[11] = a[2] :=
  (bit_append_high (a ++ b) low 5 (by omega)).trans (bit_append_high a b 2 (by omega))

@[simp] theorem format39_hi : (format39 a l).extractLsb' 9 3 = a :=
  (extract_append_high a l 9 3 (by omega)).trans (by simp)

@[simp] theorem format39_low : (format39 a l).extractLsb' 0 9 = l :=
  (extract_append_low a l 0 9 (by omega)).trans (by simp)

@[simp] theorem format39_bit11 : (format39 a l)[11] = a[2] :=
  bit_append_high a l 2 (by omega)
@[simp] theorem format39_bit10 : (format39 a l)[10] = a[1] :=
  bit_append_high a l 1 (by omega)
@[simp] theorem format39_bit9 : (format39 a l)[9] = a[0] :=
  bit_append_high a l 0 (by omega)

@[simp] theorem format111_bit11 (h : BitVec 1) (o : BitVec 11) : (format111 h o)[11] = h[0] :=
  bit_append_high h o 0 (by omega)

@[simp] theorem format111_low (h : BitVec 1) (o : BitVec 11) : (format111 h o).extractLsb' 0 11 = o :=
  (extract_append_low h o 0 11 (by omega)).trans (by simp)

@[simp] theorem format48_low (h : BitVec 4) (v : BitVec 8) : (format48 h v).extractLsb' 0 8 = v :=
  (extract_append_low h v 0 8 (by omega)).trans (by simp)

@[simp] theorem lowSR2_bit5 (r : Reg) : (lowSR2 r)[5] = false := by cases r <;> rfl
@[simp] theorem lowSR2_field (r : Reg) : (lowSR2 r).extractLsb' 0 3 = r.bits :=
  (extract_append_low 0#3 r.bits 0 3 (by omega)).trans (by simp)

@[simp] theorem lowImm5_bit5 (imm : Word) : (lowImm5 imm)[5] = true :=
  (bit_append_high 1#1 (imm.setWidth 5) 0 (by omega)).trans (by decide)
@[simp] theorem lowImm5_field (imm : Word) : (lowImm5 imm).extractLsb' 0 5 = imm.setWidth 5 :=
  (extract_append_low 1#1 (imm.setWidth 5) 0 5 (by omega)).trans (by simp)

@[simp] theorem branchBits_n (n z p : Bool) : (branchBits n z p)[2] = n := by
  cases n <;> cases z <;> cases p <;> rfl
@[simp] theorem branchBits_z (n z p : Bool) : (branchBits n z p)[1] = z := by
  cases n <;> cases z <;> cases p <;> rfl
@[simp] theorem branchBits_p (n z p : Bool) : (branchBits n z p)[0] = p := by
  cases n <;> cases z <;> cases p <;> rfl

end

/-- Everything the decoding of a TRAP's vector can give (R160). -/
theorem decodeTrap_cases (v : Byte) :
    (v = 0x20#8 ∧ decodeTrap v = .getc) ∨ (v = 0x21#8 ∧ decodeTrap v = .outChar) ∨
    (v = 0x22#8 ∧ decodeTrap v = .puts) ∨ (v = 0x23#8 ∧ decodeTrap v = .inChar) ∨
    (v = 0x24#8 ∧ decodeTrap v = .putsp) ∨ (v = 0x25#8 ∧ decodeTrap v = .halt) ∨
    ((v.toNat < 0x20 ∨ 0x25 < v.toNat) ∧ decodeTrap v = .trap v) := by
  revert v; decide

/-- A well-formed immediate or offset is the sign extension of its own low bits (R8, R85). -/
theorem sext_of_fits {n : Nat} {v : Word} (h : fitsSigned n v = true) : sext (v.setWidth n) = v := by
  simpa [fitsSigned, sext] using h

/-- The sign extension of a field is well-formed (R8, R85). -/
theorem fits_of_sext {n : Nat} (h : n ≤ 16) (f : BitVec n) : fitsSigned n (sext f) = true := by
  have e : (sext f).setWidth n = f := by
    ext j hj
    have : j < 16 := by omega
    simp [sext, BitVec.getElem_signExtend, this, hj]
  rw [fitsSigned, e]
  simp [sext]

end Sys2Proof
end

