-- ==== Sys2Proof/Laws/State.lean ====
section
/-! SUPPORT. One lemma per field per named update of the state, true by rfl, so that no later proof unfolds a record
update; and the register and cell views of the updates. -/

namespace Sys2Proof.Machine

variable (s : State)

/-! ### setReg -/

@[simp] theorem State.setReg_regs (r : Reg) (v : Word) : (s.setReg r v).regs = s.regs.set r v := rfl
@[simp] theorem State.setReg_pc (r : Reg) (v : Word) : (s.setReg r v).pc = s.pc := rfl
@[simp] theorem State.setReg_cond (r : Reg) (v : Word) : (s.setReg r v).cond = s.cond := rfl
@[simp] theorem State.setReg_run (r : Reg) (v : Word) : (s.setReg r v).run = s.run := rfl
@[simp] theorem State.setReg_fault (r : Reg) (v : Word) : (s.setReg r v).fault = s.fault := rfl
@[simp] theorem State.setReg_mem (r : Reg) (v : Word) : (s.setReg r v).mem = s.mem := rfl
@[simp] theorem State.setReg_activity (r : Reg) (v : Word) : (s.setReg r v).activity = s.activity := rfl
@[simp] theorem State.setReg_input (r : Reg) (v : Word) : (s.setReg r v).input = s.input := rfl
@[simp] theorem State.setReg_output (r : Reg) (v : Word) : (s.setReg r v).output = s.output := rfl
@[simp] theorem State.setReg_stop (r : Reg) (v : Word) : (s.setReg r v).stop = s.stop := rfl
@[simp] theorem State.setReg_config (r : Reg) (v : Word) : (s.setReg r v).config = s.config := rfl
@[simp] theorem State.setReg_cell (r : Reg) (v : Word) (q : Word) : (s.setReg r v).cell q = s.cell q := rfl

/-! ### setPc -/

@[simp] theorem State.setPc_regs (v : Word) : (s.setPc v).regs = s.regs := rfl
@[simp] theorem State.setPc_pc (v : Word) : (s.setPc v).pc = v := rfl
@[simp] theorem State.setPc_cond (v : Word) : (s.setPc v).cond = s.cond := rfl
@[simp] theorem State.setPc_run (v : Word) : (s.setPc v).run = s.run := rfl
@[simp] theorem State.setPc_fault (v : Word) : (s.setPc v).fault = s.fault := rfl
@[simp] theorem State.setPc_mem (v : Word) : (s.setPc v).mem = s.mem := rfl
@[simp] theorem State.setPc_activity (v : Word) : (s.setPc v).activity = s.activity := rfl
@[simp] theorem State.setPc_input (v : Word) : (s.setPc v).input = s.input := rfl
@[simp] theorem State.setPc_output (v : Word) : (s.setPc v).output = s.output := rfl
@[simp] theorem State.setPc_stop (v : Word) : (s.setPc v).stop = s.stop := rfl
@[simp] theorem State.setPc_config (v : Word) : (s.setPc v).config = s.config := rfl
@[simp] theorem State.setPc_reg (v : Word) (q : Reg) : (s.setPc v).reg q = s.reg q := rfl
@[simp] theorem State.setPc_cell (v : Word) (q : Word) : (s.setPc v).cell q = s.cell q := rfl

/-! ### setCond -/

@[simp] theorem State.setCond_regs (c : Cond) : (s.setCond c).regs = s.regs := rfl
@[simp] theorem State.setCond_pc (c : Cond) : (s.setCond c).pc = s.pc := rfl
@[simp] theorem State.setCond_cond (c : Cond) : (s.setCond c).cond = c := rfl
@[simp] theorem State.setCond_run (c : Cond) : (s.setCond c).run = s.run := rfl
@[simp] theorem State.setCond_fault (c : Cond) : (s.setCond c).fault = s.fault := rfl
@[simp] theorem State.setCond_mem (c : Cond) : (s.setCond c).mem = s.mem := rfl
@[simp] theorem State.setCond_activity (c : Cond) : (s.setCond c).activity = s.activity := rfl
@[simp] theorem State.setCond_input (c : Cond) : (s.setCond c).input = s.input := rfl
@[simp] theorem State.setCond_output (c : Cond) : (s.setCond c).output = s.output := rfl
@[simp] theorem State.setCond_stop (c : Cond) : (s.setCond c).stop = s.stop := rfl
@[simp] theorem State.setCond_config (c : Cond) : (s.setCond c).config = s.config := rfl
@[simp] theorem State.setCond_reg (c : Cond) (q : Reg) : (s.setCond c).reg q = s.reg q := rfl
@[simp] theorem State.setCond_cell (c : Cond) (q : Word) : (s.setCond c).cell q = s.cell q := rfl

/-! ### setRun -/

@[simp] theorem State.setRun_regs (x : RunState) : (s.setRun x).regs = s.regs := rfl
@[simp] theorem State.setRun_pc (x : RunState) : (s.setRun x).pc = s.pc := rfl
@[simp] theorem State.setRun_cond (x : RunState) : (s.setRun x).cond = s.cond := rfl
@[simp] theorem State.setRun_run (x : RunState) : (s.setRun x).run = x := rfl
@[simp] theorem State.setRun_fault (x : RunState) : (s.setRun x).fault = s.fault := rfl
@[simp] theorem State.setRun_mem (x : RunState) : (s.setRun x).mem = s.mem := rfl
@[simp] theorem State.setRun_activity (x : RunState) : (s.setRun x).activity = s.activity := rfl
@[simp] theorem State.setRun_input (x : RunState) : (s.setRun x).input = s.input := rfl
@[simp] theorem State.setRun_output (x : RunState) : (s.setRun x).output = s.output := rfl
@[simp] theorem State.setRun_stop (x : RunState) : (s.setRun x).stop = s.stop := rfl
@[simp] theorem State.setRun_config (x : RunState) : (s.setRun x).config = s.config := rfl
@[simp] theorem State.setRun_reg (x : RunState) (q : Reg) : (s.setRun x).reg q = s.reg q := rfl
@[simp] theorem State.setRun_cell (x : RunState) (q : Word) : (s.setRun x).cell q = s.cell q := rfl

/-! ### setActivity -/

@[simp] theorem State.setActivity_regs (x : Activity) : (s.setActivity x).regs = s.regs := rfl
@[simp] theorem State.setActivity_pc (x : Activity) : (s.setActivity x).pc = s.pc := rfl
@[simp] theorem State.setActivity_cond (x : Activity) : (s.setActivity x).cond = s.cond := rfl
@[simp] theorem State.setActivity_run (x : Activity) : (s.setActivity x).run = s.run := rfl
@[simp] theorem State.setActivity_fault (x : Activity) : (s.setActivity x).fault = s.fault := rfl
@[simp] theorem State.setActivity_mem (x : Activity) : (s.setActivity x).mem = s.mem := rfl
@[simp] theorem State.setActivity_activity (x : Activity) : (s.setActivity x).activity = x := rfl
@[simp] theorem State.setActivity_input (x : Activity) : (s.setActivity x).input = s.input := rfl
@[simp] theorem State.setActivity_output (x : Activity) : (s.setActivity x).output = s.output := rfl
@[simp] theorem State.setActivity_stop (x : Activity) : (s.setActivity x).stop = s.stop := rfl
@[simp] theorem State.setActivity_config (x : Activity) : (s.setActivity x).config = s.config := rfl
@[simp] theorem State.setActivity_reg (x : Activity) (q : Reg) : (s.setActivity x).reg q = s.reg q := rfl
@[simp] theorem State.setActivity_cell (x : Activity) (q : Word) : (s.setActivity x).cell q = s.cell q := rfl

/-! ### setCell -/

@[simp] theorem State.setCell_regs (a v : Word) : (s.setCell a v).regs = s.regs := rfl
@[simp] theorem State.setCell_pc (a v : Word) : (s.setCell a v).pc = s.pc := rfl
@[simp] theorem State.setCell_cond (a v : Word) : (s.setCell a v).cond = s.cond := rfl
@[simp] theorem State.setCell_run (a v : Word) : (s.setCell a v).run = s.run := rfl
@[simp] theorem State.setCell_fault (a v : Word) : (s.setCell a v).fault = s.fault := rfl
@[simp] theorem State.setCell_mem (a v : Word) : (s.setCell a v).mem = s.mem.put a v := rfl
@[simp] theorem State.setCell_activity (a v : Word) : (s.setCell a v).activity = s.activity := rfl
@[simp] theorem State.setCell_input (a v : Word) : (s.setCell a v).input = s.input := rfl
@[simp] theorem State.setCell_output (a v : Word) : (s.setCell a v).output = s.output := rfl
@[simp] theorem State.setCell_stop (a v : Word) : (s.setCell a v).stop = s.stop := rfl
@[simp] theorem State.setCell_config (a v : Word) : (s.setCell a v).config = s.config := rfl
@[simp] theorem State.setCell_reg (a v : Word) (q : Reg) : (s.setCell a v).reg q = s.reg q := rfl

/-! ### setInput -/

@[simp] theorem State.setInput_regs (c : InputChannel) : (s.setInput c).regs = s.regs := rfl
@[simp] theorem State.setInput_pc (c : InputChannel) : (s.setInput c).pc = s.pc := rfl
@[simp] theorem State.setInput_cond (c : InputChannel) : (s.setInput c).cond = s.cond := rfl
@[simp] theorem State.setInput_run (c : InputChannel) : (s.setInput c).run = s.run := rfl
@[simp] theorem State.setInput_fault (c : InputChannel) : (s.setInput c).fault = s.fault := rfl
@[simp] theorem State.setInput_mem (c : InputChannel) : (s.setInput c).mem = s.mem := rfl
@[simp] theorem State.setInput_activity (c : InputChannel) : (s.setInput c).activity = s.activity := rfl
@[simp] theorem State.setInput_input (c : InputChannel) : (s.setInput c).input = c := rfl
@[simp] theorem State.setInput_output (c : InputChannel) : (s.setInput c).output = s.output := rfl
@[simp] theorem State.setInput_stop (c : InputChannel) : (s.setInput c).stop = s.stop := rfl
@[simp] theorem State.setInput_config (c : InputChannel) : (s.setInput c).config = s.config := rfl
@[simp] theorem State.setInput_reg (c : InputChannel) (q : Reg) : (s.setInput c).reg q = s.reg q := rfl
@[simp] theorem State.setInput_cell (c : InputChannel) (q : Word) : (s.setInput c).cell q = s.cell q := rfl

/-! ### emit -/

@[simp] theorem State.emit_regs (bs : List Byte) : (s.emit bs).regs = s.regs := rfl
@[simp] theorem State.emit_pc (bs : List Byte) : (s.emit bs).pc = s.pc := rfl
@[simp] theorem State.emit_cond (bs : List Byte) : (s.emit bs).cond = s.cond := rfl
@[simp] theorem State.emit_run (bs : List Byte) : (s.emit bs).run = s.run := rfl
@[simp] theorem State.emit_fault (bs : List Byte) : (s.emit bs).fault = s.fault := rfl
@[simp] theorem State.emit_mem (bs : List Byte) : (s.emit bs).mem = s.mem := rfl
@[simp] theorem State.emit_activity (bs : List Byte) : (s.emit bs).activity = s.activity := rfl
@[simp] theorem State.emit_input (bs : List Byte) : (s.emit bs).input = s.input := rfl
@[simp] theorem State.emit_output (bs : List Byte) : (s.emit bs).output = s.output ++ bs := rfl
@[simp] theorem State.emit_stop (bs : List Byte) : (s.emit bs).stop = s.stop := rfl
@[simp] theorem State.emit_config (bs : List Byte) : (s.emit bs).config = s.config := rfl
@[simp] theorem State.emit_reg (bs : List Byte) (q : Reg) : (s.emit bs).reg q = s.reg q := rfl
@[simp] theorem State.emit_cell (bs : List Byte) (q : Word) : (s.emit bs).cell q = s.cell q := rfl

/-! ### setStop -/

@[simp] theorem State.setStop_regs (x : StopRequest) : (s.setStop x).regs = s.regs := rfl
@[simp] theorem State.setStop_pc (x : StopRequest) : (s.setStop x).pc = s.pc := rfl
@[simp] theorem State.setStop_cond (x : StopRequest) : (s.setStop x).cond = s.cond := rfl
@[simp] theorem State.setStop_run (x : StopRequest) : (s.setStop x).run = s.run := rfl
@[simp] theorem State.setStop_fault (x : StopRequest) : (s.setStop x).fault = s.fault := rfl
@[simp] theorem State.setStop_mem (x : StopRequest) : (s.setStop x).mem = s.mem := rfl
@[simp] theorem State.setStop_activity (x : StopRequest) : (s.setStop x).activity = s.activity := rfl
@[simp] theorem State.setStop_input (x : StopRequest) : (s.setStop x).input = s.input := rfl
@[simp] theorem State.setStop_output (x : StopRequest) : (s.setStop x).output = s.output := rfl
@[simp] theorem State.setStop_stop (x : StopRequest) : (s.setStop x).stop = x := rfl
@[simp] theorem State.setStop_config (x : StopRequest) : (s.setStop x).config = s.config := rfl
@[simp] theorem State.setStop_reg (x : StopRequest) (q : Reg) : (s.setStop x).reg q = s.reg q := rfl
@[simp] theorem State.setStop_cell (x : StopRequest) (q : Word) : (s.setStop x).cell q = s.cell q := rfl

/-! ### raise -/

@[simp] theorem State.raise_regs (k : FaultKind) (v : Byte) : (s.raise k v).regs = s.regs := rfl
@[simp] theorem State.raise_pc (k : FaultKind) (v : Byte) : (s.raise k v).pc = s.pc := rfl
@[simp] theorem State.raise_cond (k : FaultKind) (v : Byte) : (s.raise k v).cond = s.cond := rfl
@[simp] theorem State.raise_run (k : FaultKind) (v : Byte) : (s.raise k v).run = .faulted := rfl
@[simp] theorem State.raise_fault (k : FaultKind) (v : Byte) : (s.raise k v).fault = ⟨k, v, s.pc - 1⟩ := rfl
@[simp] theorem State.raise_mem (k : FaultKind) (v : Byte) : (s.raise k v).mem = s.mem := rfl
@[simp] theorem State.raise_activity (k : FaultKind) (v : Byte) : (s.raise k v).activity = s.activity := rfl
@[simp] theorem State.raise_input (k : FaultKind) (v : Byte) : (s.raise k v).input = s.input := rfl
@[simp] theorem State.raise_output (k : FaultKind) (v : Byte) : (s.raise k v).output = s.output := rfl
@[simp] theorem State.raise_stop (k : FaultKind) (v : Byte) : (s.raise k v).stop = s.stop := rfl
@[simp] theorem State.raise_config (k : FaultKind) (v : Byte) : (s.raise k v).config = s.config := rfl
@[simp] theorem State.raise_reg (k : FaultKind) (v : Byte) (q : Reg) : (s.raise k v).reg q = s.reg q := rfl
@[simp] theorem State.raise_cell (k : FaultKind) (v : Byte) (q : Word) : (s.raise k v).cell q = s.cell q := rfl

/-! ### The register file: read after write -/

theorem Regs.get_set (g : Regs) (r q : Reg) (v : Word) : (g.set r v).get q = if q = r then v else g.get q := by
  cases r <;> cases q <;> rfl

@[simp] theorem State.setReg_reg (r q : Reg) (v : Word) : (s.setReg r v).reg q = if q = r then v else s.reg q :=
  Regs.get_set s.regs r q v

/-- Two register files with the same eight values are equal. -/
theorem Regs.ext_get {g h : Regs} (e : ∀ r, g.get r = h.get r) : g = h := by
  cases g; cases h
  have e0 := e .r0; have e1 := e .r1; have e2 := e .r2; have e3 := e .r3
  have e4 := e .r4; have e5 := e .r5; have e6 := e .r6; have e7 := e .r7
  simp only [Regs.get] at e0 e1 e2 e3 e4 e5 e6 e7
  simp [*]

/-! ### Operations that are one update under another name -/

@[simp] theorem State.setcc_eq (v : Word) : s.setcc v = s.setCond (Cond.ofWord v) := rfl

@[simp] theorem State.writeDest_eq (d : Reg) (v : Word) :
    s.writeDest d v = (s.setReg d v).setCond (Cond.ofWord v) := rfl

@[simp] theorem State.memWrite_eq (a v : Word) : s.memWrite a v = s.setCell a v := rfl

@[simp] theorem State.link_eq : s.link = s.setReg .r7 s.pc := rfl

@[simp] theorem State.pcRel_eq (off : Word) : s.pcRel off = s.pc + off := rfl

@[simp] theorem State.baseRel_eq (b : Reg) (off : Word) : s.baseRel b off = s.reg b + off := rfl

@[simp] theorem State.pointer_eq (off : Word) : s.pointer off = s.memRead (s.pc + off) := rfl

@[simp] theorem State.sampled_eq : s.sampled = s.setStop s.stop.tick := rfl

@[simp] theorem State.cancel_eq : s.cancel = (s.setRun .cancelled).setActivity .idle := rfl

end Sys2Proof.Machine
end

