-- ==== Sys2Proof/Laws/Memory.lean ====
section
/-! SUPPORT. The laws of the memory: a read after a write to the same cell gives the value, every other cell is left
alone (both of every memory, canonical or not), and every memory operation keeps the canonical form. -/

namespace Sys2Proof.Machine

theorem Memory.lookup_filter_ne (l : List (Nat × Word)) {a b : Nat} (h : b ≠ a) :
    Memory.lookup (l.filter (fun c => c.1 != a)) b = Memory.lookup l b := by
  induction l with
  | nil => rfl
  | cons c l ih =>
    obtain ⟨x, v⟩ := c
    by_cases hx : x = a
    · have : x ≠ b := fun e => h (e ▸ hx)
      simp [hx, ih, Memory.lookup, hx ▸ this]
    · simp [hx, ih, Memory.lookup]

theorem Memory.lookup_filter_self (l : List (Nat × Word)) (a : Nat) :
    Memory.lookup (l.filter (fun c => c.1 != a)) a = Memory.unlisted := by
  induction l with
  | nil => rfl
  | cons c l ih =>
    obtain ⟨x, v⟩ := c
    by_cases hx : x = a <;> simp [hx, ih, Memory.lookup]

theorem Memory.lookup_insert (l : List (Nat × Word)) (a b : Nat) (v : Word) (h : ∀ c ∈ l, c.1 ≠ a) :
    Memory.lookup (Memory.insert a v l) b = if a = b then v else Memory.lookup l b := by
  induction l with
  | nil => rfl
  | cons c l ih =>
    obtain ⟨x, w⟩ := c
    have hx : x ≠ a := h (x, w) (by simp)
    have hl := ih (fun c hc => h c (List.mem_cons_of_mem _ hc))
    by_cases hlt : a < x
    · simp [Memory.insert, hlt, Memory.lookup]
    · simp only [Memory.insert, hlt, if_false, Memory.lookup, hl]
      by_cases hb : x = b
      · have : a ≠ b := fun e => hx (hb.trans e.symm)
        simp [hb, this]
      · simp [hb]

/-- Read after write, every memory. -/
theorem Memory.get_put (m : Memory) (a b v : Word) : (m.put a v).get b = if b = a then v else m.get b := by
  have hmem : ∀ c ∈ m.cells.filter (fun c => c.1 != a.toNat), c.1 ≠ a.toNat := by simp
  have hab : (a.toNat = b.toNat) = (b = a) :=
    propext ⟨fun e => (BitVec.toNat_inj.mp e).symm, fun e => congrArg BitVec.toNat e.symm⟩
  unfold Memory.get Memory.put
  by_cases hv : v = Memory.unlisted
  · by_cases hb : b = a
    · simp [hv, hb, Memory.lookup_filter_self]
    · have : b.toNat ≠ a.toNat := fun e => hb (BitVec.toNat_inj.mp e)
      simp [hv, hb, Memory.lookup_filter_ne _ this]
  · simp only [hv, if_false, Memory.lookup_insert _ _ _ _ hmem, hab]
    by_cases hb : b = a
    · simp [hb]
    · have : b.toNat ≠ a.toNat := fun e => hb (BitVec.toNat_inj.mp e)
      simp [hb, Memory.lookup_filter_ne _ this]

@[simp] theorem State.setCell_cell (s : State) (a b v : Word) :
    (s.setCell a v).cell b = if b = a then v else s.cell b := Memory.get_put s.mem a b v

/-! ### The canonical form -/

theorem Memory.mem_insert {l : List (Nat × Word)} {a : Nat} {v : Word} {c : Nat × Word} :
    c ∈ Memory.insert a v l ↔ c = (a, v) ∨ c ∈ l := by
  induction l with
  | nil => simp [Memory.insert]
  | cons d l ih =>
    by_cases h : a < d.1
    · simp [Memory.insert, h]
    · simp only [Memory.insert, h, if_false, List.mem_cons, ih]
      tauto

theorem Memory.insert_pairwise {l : List (Nat × Word)} {a : Nat} (v : Word)
    (h : l.Pairwise (fun c d => c.1 < d.1)) (hne : ∀ c ∈ l, c.1 ≠ a) :
    (Memory.insert a v l).Pairwise (fun c d => c.1 < d.1) := by
  induction l with
  | nil => simp [Memory.insert]
  | cons d l ih =>
    have hd := List.pairwise_cons.mp h
    by_cases hlt : a < d.1
    · simp only [Memory.insert, hlt, if_true, List.pairwise_cons]
      refine ⟨fun c hc => ?_, hd⟩
      rcases List.mem_cons.mp hc with rfl | hc
      · exact hlt
      · exact hlt.trans (hd.1 c hc)
    · simp only [Memory.insert, hlt, if_false, List.pairwise_cons]
      refine ⟨fun c hc => ?_, ih hd.2 (fun c hc => hne c (List.mem_cons_of_mem _ hc))⟩
      rcases Memory.mem_insert.mp hc with rfl | hc
      · have := hne d (by simp); show d.1 < a; omega
      · exact hd.1 c hc

/-- A store keeps the canonical form. -/
theorem Memory.put_wf {m : Memory} (h : m.wf) (a v : Word) : (m.put a v).wf := by
  obtain ⟨hp, hc⟩ := h
  have hp' : (m.cells.filter (fun c => c.1 != a.toNat)).Pairwise (fun c d => c.1 < d.1) := hp.filter _
  have hc' : ∀ c ∈ m.cells.filter (fun c => c.1 != a.toNat), c.1 < 65536 ∧ c.2 ≠ Memory.unlisted :=
    fun c hm => hc c (List.mem_of_mem_filter hm)
  unfold Memory.put
  by_cases hv : v = Memory.unlisted
  · simpa only [Memory.wf, hv, if_true] using ⟨hp', hc'⟩
  · simp only [Memory.wf, hv, if_false]
    refine ⟨Memory.insert_pairwise v hp' (by simp), fun c hm => ?_⟩
    rcases Memory.mem_insert.mp hm with rfl | hm
    · exact ⟨a.isLt, hv⟩
    · exact hc' c hm

/-- The load port keeps the canonical form. -/
theorem Memory.load_wf {m : Memory} (h : m.wf) (ws : List (Word × Word)) : (m.load ws).wf := by
  induction ws generalizing m with
  | nil => exact h
  | cons w ws ih => exact ih (Memory.put_wf h w.1 w.2)

theorem State.setCell_mem_wf {s : State} (h : s.mem.wf) (a v : Word) : (s.setCell a v).mem.wf :=
  Memory.put_wf h a v

/-- In a list with rising addresses every entry is the one a read finds. -/
theorem Memory.lookup_of_mem {l : List (Nat × Word)} (h : l.Pairwise (fun c d => c.1 < d.1)) {c : Nat × Word}
    (hc : c ∈ l) : Memory.lookup l c.1 = c.2 := by
  induction l with
  | nil => simp at hc
  | cons d l ih =>
    have hd := List.pairwise_cons.mp h
    rcases List.mem_cons.mp hc with rfl | hm
    · simp [Memory.lookup]
    · have : d.1 ≠ c.1 := (hd.1 c hm).ne
      obtain ⟨x, v⟩ := d
      simp only [Memory.lookup, this, if_false]
      exact ih hd.2 hm

end Sys2Proof.Machine
end

