-- ==== Sys2Proof/Laws/PerInstr.lean ====
section
/-! SUPPORT. Statements made once per instruction. The family `OpcodeField`: bits [15:12] of the encoding of an
instruction are its opcode number (R81, R82). -/

namespace Sys2Proof.Laws.OpcodeField

/-- Bits [15:12] of the encoding are the opcode number. -/
def Statement (i : Instr) : Prop := opcodeField (encode i) = i.opcode

theorem of_any (i : Instr) : Statement i := BitVec.extractLsb'_append_eq_left

theorem addReg (d a b : Reg) : Statement (.addReg d a b) := of_any _
theorem addImm (d a : Reg) (imm : Word) : Statement (.addImm d a imm) := of_any _
theorem andReg (d a b : Reg) : Statement (.andReg d a b) := of_any _
theorem andImm (d a : Reg) (imm : Word) : Statement (.andImm d a imm) := of_any _
theorem notReg (d a : Reg) : Statement (.notReg d a) := of_any _
theorem br (n z p : Bool) (off : Word) : Statement (.br n z p off) := of_any _
theorem jmp (base : Reg) : Statement (.jmp base) := of_any _
theorem jsr (off : Word) : Statement (.jsr off) := of_any _
theorem jsrr (base : Reg) : Statement (.jsrr base) := of_any _
theorem ld (d : Reg) (off : Word) : Statement (.ld d off) := of_any _
theorem ldi (d : Reg) (off : Word) : Statement (.ldi d off) := of_any _
theorem ldr (d base : Reg) (off : Word) : Statement (.ldr d base off) := of_any _
theorem lea (d : Reg) (off : Word) : Statement (.lea d off) := of_any _
theorem st (r : Reg) (off : Word) : Statement (.st r off) := of_any _
theorem sti (r : Reg) (off : Word) : Statement (.sti r off) := of_any _
theorem str (r base : Reg) (off : Word) : Statement (.str r base off) := of_any _
theorem trap (v : Byte) : Statement (.trap v) := of_any _
theorem getc : Statement .getc := of_any _
theorem outChar : Statement .outChar := of_any _
theorem puts : Statement .puts := of_any _
theorem inChar : Statement .inChar := of_any _
theorem putsp : Statement .putsp := of_any _
theorem halt : Statement .halt := of_any _
theorem rti : Statement .rti := of_any _
theorem res : Statement .res := of_any _

end Sys2Proof.Laws.OpcodeField
end

