-- ==== Sys2Proof/Laws/Read.lean ====
section
/-! SUPPORT. What the poll, the read and the condition-flag rule can do: one lemma per field they leave alone, their cases said
once, and that they keep the canonical form of the memory. -/

namespace Sys2Proof.Machine

variable (s : State)

/-! ### The poll (R53, R56) -/

@[simp] theorem State.polled_regs : s.polled.regs = s.regs := by
  unfold State.polled; split <;> rfl

@[simp] theorem State.polled_pc : s.polled.pc = s.pc := by
  unfold State.polled; split <;> rfl

@[simp] theorem State.polled_cond : s.polled.cond = s.cond := by
  unfold State.polled; split <;> rfl

@[simp] theorem State.polled_run : s.polled.run = s.run := by
  unfold State.polled; split <;> rfl

@[simp] theorem State.polled_fault : s.polled.fault = s.fault := by
  unfold State.polled; split <;> rfl

@[simp] theorem State.polled_activity : s.polled.activity = s.activity := by
  unfold State.polled; split <;> rfl

@[simp] theorem State.polled_output : s.polled.output = s.output := by
  unfold State.polled; split <;> rfl

@[simp] theorem State.polled_stop : s.polled.stop = s.stop := by
  unfold State.polled; split <;> rfl

@[simp] theorem State.polled_config : s.polled.config = s.config := by
  unfold State.polled; split <;> rfl

@[simp] theorem State.polled_reg (r : Reg) : s.polled.reg r = s.reg r := by
  unfold State.polled; split <;> rfl

/-- Everything a poll can do: it takes the character the channel answers with, or clears KBSR. -/
theorem State.polled_cases :
    (∃ c rest, s.input.ask = (some c, rest) ∧ s.polled =
      ((s.setInput rest).setCell s.config.kbsrAddr 0x8000).setCell s.config.kbdrAddr (zext16 c)) ∨
    (∃ rest, s.input.ask = (none, rest) ∧ s.polled = (s.setInput rest).setCell s.config.kbsrAddr 0) := by
  rcases h : s.input.ask with ⟨_ | c, rest⟩
  · exact .inr ⟨rest, rfl, by simp [State.polled, h]⟩
  · exact .inl ⟨c, rest, rfl, by simp [State.polled, h]⟩

theorem State.polled_mem_wf (h : s.mem.wf) : s.polled.mem.wf := by
  rcases s.polled_cases with ⟨c, rest, -, e⟩ | ⟨rest, -, e⟩ <;> rw [e]
  · exact Memory.put_wf (Memory.put_wf h _ _) _ _
  · exact Memory.put_wf h _ _

/-- A poll changes no cell but the two keyboard registers. -/
theorem State.polled_cell_of_ne {a : Word} (h : a ≠ s.config.kbsrAddr) (k : a ≠ s.config.kbdrAddr) :
    s.polled.cell a = s.cell a := by
  rcases s.polled_cases with ⟨c, rest, -, e⟩ | ⟨rest, -, e⟩ <;> simp [e, h, k]

/-! ### A read and its side effect (R53, R57) -/

theorem State.touch_of_ne {a : Word} (h : a ≠ s.config.kbsrAddr) : s.touch a = s := by simp [State.touch, h]

theorem State.touch_kbsr : s.touch s.config.kbsrAddr = s.polled := by simp [State.touch]

theorem State.touch_cases (a : Word) :
    (a = s.config.kbsrAddr ∧ s.touch a = s.polled) ∨ (a ≠ s.config.kbsrAddr ∧ s.touch a = s) := by
  by_cases h : a = s.config.kbsrAddr
  · exact .inl ⟨h, by rw [h, State.touch_kbsr]⟩
  · exact .inr ⟨h, s.touch_of_ne h⟩

@[simp] theorem State.memRead_fst (a : Word) : (s.memRead a).1 = (s.touch a).cell a := rfl

@[simp] theorem State.memRead_snd (a : Word) : (s.memRead a).2 = s.touch a := rfl

@[simp] theorem State.touch_regs (a : Word) : (s.touch a).regs = s.regs := by
  unfold State.touch; split <;> simp

@[simp] theorem State.touch_pc (a : Word) : (s.touch a).pc = s.pc := by
  unfold State.touch; split <;> simp

@[simp] theorem State.touch_cond (a : Word) : (s.touch a).cond = s.cond := by
  unfold State.touch; split <;> simp

@[simp] theorem State.touch_run (a : Word) : (s.touch a).run = s.run := by
  unfold State.touch; split <;> simp

@[simp] theorem State.touch_fault (a : Word) : (s.touch a).fault = s.fault := by
  unfold State.touch; split <;> simp

@[simp] theorem State.touch_activity (a : Word) : (s.touch a).activity = s.activity := by
  unfold State.touch; split <;> simp

@[simp] theorem State.touch_output (a : Word) : (s.touch a).output = s.output := by
  unfold State.touch; split <;> simp

@[simp] theorem State.touch_stop (a : Word) : (s.touch a).stop = s.stop := by
  unfold State.touch; split <;> simp

@[simp] theorem State.touch_config (a : Word) : (s.touch a).config = s.config := by
  unfold State.touch; split <;> simp

@[simp] theorem State.touch_reg (a : Word) (r : Reg) : (s.touch a).reg r = s.reg r := by
  unfold State.touch; split <;> simp

theorem State.touch_mem_wf (h : s.mem.wf) (a : Word) : (s.touch a).mem.wf := by
  unfold State.touch; split
  · exact s.polled_mem_wf h
  · exact h

theorem State.touch_cell_of_ne {a b : Word} (h : b ≠ s.config.kbsrAddr) (k : b ≠ s.config.kbdrAddr) :
    (s.touch a).cell b = s.cell b := by
  rcases s.touch_cases a with ⟨-, e⟩ | ⟨-, e⟩ <;> rw [e]
  exact s.polled_cell_of_ne h k

/-! ### The channels and the stop request (R36 to R38) -/

/-- Once the listed answers are used up an ended input answers that no character is available, for ever (R59). -/
@[simp] theorem InputChannel.ask_ended : InputChannel.ask ⟨[], .ended⟩ = (none, ⟨[], .ended⟩) := rfl

@[simp] theorem InputChannel.ask_cons (x : Option Byte) (xs : List (Option Byte)) (r : LaterInput) :
    InputChannel.ask ⟨x :: xs, r⟩ = (x, ⟨xs, r⟩) := rfl

@[simp] theorem InputChannel.ask_nil (r : LaterInput) : InputChannel.ask ⟨[], r⟩ = r.ask := rfl

@[simp] theorem InputChannel.answer_zero (c : InputChannel) : c.answer 0 = c.ask.1 := rfl

@[simp] theorem InputChannel.answer_succ (c : InputChannel) (k : Nat) : c.answer (k + 1) = c.ask.2.answer k := rfl

/-- The ended input answers every question alike. -/
theorem InputChannel.answer_ended (k : Nat) : InputChannel.answer ⟨[], .ended⟩ k = none := by
  induction k with
  | zero => rfl
  | succ k ih => exact ih

/-- A raised stop request stays raised (R38). -/
theorem StopRequest.raised_tick {r : StopRequest} (h : r.raised = true) : r.tick.raised = true := by
  cases r with
  | never => simp [StopRequest.raised] at h
  | after n => simp [StopRequest.raised] at h; simp [StopRequest.tick, StopRequest.raised, h]

/-! ### The flags (R26, R27) -/

/-- The three cases of R27, disjoint and covering every value. -/
theorem Cond.ofWord_cases (v : Word) :
    (0x8000 ≤ v.toNat ∧ Cond.ofWord v = .negative) ∨ (v.toNat = 0 ∧ Cond.ofWord v = .zero) ∨
      (1 ≤ v.toNat ∧ v.toNat ≤ 0x7FFF ∧ Cond.ofWord v = .positive) := by
  have hm : v[15] = decide (0x8000 ≤ v.toNat) := by
    have := BitVec.msb_eq_decide v
    simpa [BitVec.msb, BitVec.getMsbD, ← BitVec.getLsbD_eq_getElem] using this
  unfold Cond.ofWord
  rw [hm]
  by_cases h : 0x8000 ≤ v.toNat
  · exact .inl ⟨h, by simp [h]⟩
  · by_cases h0 : v = 0
    · exact .inr (.inl ⟨by simp [h0], by simp [h0]⟩)
    · have : v.toNat ≠ 0 := fun e => h0 (BitVec.eq_of_toNat_eq (by simpa using e))
      exact .inr (.inr ⟨by omega, by omega, by simpa [h] using h0⟩)

end Sys2Proof.Machine
end

