-- ==== Sys2Proof/Laws/Trap.lean ====
section
/-! SUPPORT. What the input services and the string loop can do, said once. -/

namespace Sys2Proof.Machine

variable (s : State)

/-! ### GETC and IN (R161, R164) -/

/-- Everything GETC's `InGet` can do. -/
theorem State.tryGetc_cases :
    (∃ c rest, s.input.ask = (some c, rest) ∧
      s.tryGetc = ((s.setInput rest).setReg .r0 (zext16 c)).setActivity .idle) ∨
    (∃ rest, s.input.ask = (none, rest) ∧ s.tryGetc = (s.setInput rest).setActivity .getc) := by
  rcases h : s.input.ask with ⟨_ | c, rest⟩
  · exact .inr ⟨rest, rfl, by simp [State.tryGetc, h]⟩
  · exact .inl ⟨c, rest, rfl, by simp [State.tryGetc, h]⟩

/-- Everything IN can do after its prompt. -/
theorem State.tryIn_cases :
    (∃ c rest, s.input.ask = (some c, rest) ∧
      s.tryIn = (((s.setInput rest).emit [c]).setReg .r0 (zext16 c)).setActivity .idle) ∨
    (∃ rest, s.input.ask = (none, rest) ∧ s.tryIn = (s.setInput rest).setActivity .inChar) := by
  rcases h : s.input.ask with ⟨_ | c, rest⟩
  · exact .inr ⟨rest, rfl, by simp [State.tryIn, h]⟩
  · exact .inl ⟨c, rest, rfl, by simp [State.tryIn, h]⟩

/-! ### Reads do not see the output, the registers or the activity -/

theorem State.emit_touch (bs : List Byte) (a : Word) : (s.emit bs).touch a = (s.touch a).emit bs := by
  rcases s.touch_cases a with ⟨h, e⟩ | ⟨h, e⟩
  · subst h
    rw [e, show s.config.kbsrAddr = (s.emit bs).config.kbsrAddr from rfl, State.touch_kbsr]
    rcases s.polled_cases with ⟨c, rest, q, e⟩ | ⟨rest, q, e⟩ <;> rw [e] <;>
      simp [State.polled, q] <;> rfl
  · rw [e, State.touch_of_ne]; exact h

@[simp] theorem State.emit_nil : s.emit [] = s := by simp [State.emit]

theorem State.emit_emit (bs cs : List Byte) : (s.emit bs).emit cs = s.emit (bs ++ cs) := by
  simp [State.emit]

/-! ### The string loop (R163, R165) -/

section
variable (mode : StringMode) (n : Nat) (a : Word)

/-- The loop from a cell that reads zero. -/
theorem stringLoop_stop (h : (s.memRead a).1 = 0) :
    stringLoop mode (n + 1) a s = (s.memRead a).2.setActivity .idle := by
  rw [stringLoop]; exact if_pos h

/-- The loop from a cell that reads non-zero. -/
theorem stringLoop_more (h : (s.memRead a).1 ≠ 0) : stringLoop mode (n + 1) a s =
    stringLoop mode n (a + 1) ((s.memRead a).2.emit (mode.bytes (s.memRead a).1)) := by
  rw [stringLoop]; exact if_neg h

/-- One loop property from its three cases: the end of a round, a zero cell, a non-zero cell. -/
theorem stringLoop_induct {P : State → Prop} (hround : ∀ a s, P s → P (s.setActivity (mode.activity a)))
    (hstop : ∀ a s, P s → P ((s.touch a).setActivity .idle))
    (hmore : ∀ a s bs, P s → P ((s.touch a).emit bs)) (h : P s) : P (stringLoop mode n a s) := by
  induction n generalizing a s with
  | zero => exact hround a s h
  | succ n ih =>
    by_cases hz : (s.memRead a).1 = 0
    · rw [stringLoop_stop s mode n a hz]; exact hstop a s h
    · rw [stringLoop_more s mode n a hz]; exact ih _ _ (hmore a s _ h)

/-- What the loop leaves alone (R168). -/
theorem stringLoop_keeps : (stringLoop mode n a s).regs = s.regs ∧ (stringLoop mode n a s).pc = s.pc ∧
    (stringLoop mode n a s).cond = s.cond ∧ (stringLoop mode n a s).run = s.run ∧
    (stringLoop mode n a s).fault = s.fault ∧ (stringLoop mode n a s).stop = s.stop ∧
    (stringLoop mode n a s).config = s.config := by
  refine stringLoop_induct s mode n a
    (P := fun t => t.regs = s.regs ∧ t.pc = s.pc ∧ t.cond = s.cond ∧ t.run = s.run ∧ t.fault = s.fault ∧
      t.stop = s.stop ∧ t.config = s.config) ?_ ?_ ?_ ⟨rfl, rfl, rfl, rfl, rfl, rfl, rfl⟩
  · intro a t h; simpa using h
  · intro a t h; simpa using h
  · intro a t bs h; simpa using h

@[simp] theorem stringLoop_regs : (stringLoop mode n a s).regs = s.regs := (stringLoop_keeps s mode n a).1
@[simp] theorem stringLoop_pc : (stringLoop mode n a s).pc = s.pc := (stringLoop_keeps s mode n a).2.1
@[simp] theorem stringLoop_cond : (stringLoop mode n a s).cond = s.cond := (stringLoop_keeps s mode n a).2.2.1
@[simp] theorem stringLoop_run : (stringLoop mode n a s).run = s.run := (stringLoop_keeps s mode n a).2.2.2.1
@[simp] theorem stringLoop_fault : (stringLoop mode n a s).fault = s.fault := (stringLoop_keeps s mode n a).2.2.2.2.1
@[simp] theorem stringLoop_stopReq : (stringLoop mode n a s).stop = s.stop :=
  (stringLoop_keeps s mode n a).2.2.2.2.2.1
@[simp] theorem stringLoop_config : (stringLoop mode n a s).config = s.config :=
  (stringLoop_keeps s mode n a).2.2.2.2.2.2

@[simp] theorem stringLoop_reg (r : Reg) : (stringLoop mode n a s).reg r = s.reg r := by
  simp [State.reg]

theorem stringLoop_mem_wf (h : s.mem.wf) : (stringLoop mode n a s).mem.wf :=
  stringLoop_induct s mode n a (fun _ _ h => h) (fun a t h => t.touch_mem_wf h a) (fun a t _ h => t.touch_mem_wf h a) h

theorem stringLoop_output : ∃ bs, (stringLoop mode n a s).output = s.output ++ bs := by
  refine stringLoop_induct s mode n a (P := fun t => ∃ bs, t.output = s.output ++ bs) ?_ ?_ ?_ ⟨[], by simp⟩
  · intro a t h; simpa using h
  · intro a t h; simpa using h
  · rintro a t bs ⟨cs, h⟩; exact ⟨cs ++ bs, by simp [h]⟩

/-- A cell that is no keyboard register is left alone. -/
theorem stringLoop_cell {b : Word} (h : b ≠ s.config.kbsrAddr) (k : b ≠ s.config.kbdrAddr) :
    (stringLoop mode n a s).cell b = s.cell b := by
  refine (stringLoop_induct s mode n a (P := fun t => t.config = s.config ∧ t.cell b = s.cell b)
    ?_ ?_ ?_ ⟨rfl, rfl⟩).2
  · intro a t h; simpa using h
  · rintro a t ⟨c, e⟩; exact ⟨by simp [c], by simp [State.touch_cell_of_ne t (c ▸ h) (c ▸ k), e]⟩
  · rintro a t bs ⟨c, e⟩; exact ⟨by simp [c], by simp [State.touch_cell_of_ne t (c ▸ h) (c ▸ k), e]⟩

/-- The loop ends between instructions or inside its own routine. -/
theorem stringLoop_activity :
    (stringLoop mode n a s).activity = .idle ∨ ∃ b, (stringLoop mode n a s).activity = mode.activity b := by
  induction n generalizing a s with
  | zero => exact .inr ⟨a, rfl⟩
  | succ n ih =>
    by_cases hz : (s.memRead a).1 = 0
    · rw [stringLoop_stop s mode n a hz]; exact .inl rfl
    · rw [stringLoop_more s mode n a hz]; exact ih _ _

/-- The loop does what the run of reads says, and then is between instructions. -/
theorem stringLoop_of_run {m : Nat} {bs : List Byte} {u : State} (h : StringRun mode m a s bs u) (hm : m < n) :
    stringLoop mode n a s = (u.emit bs).setActivity .idle := by
  suffices ∀ cs, stringLoop mode n a (s.emit cs) = (u.emit (cs ++ bs)).setActivity .idle by
    simpa using this []
  induction h generalizing n with
  | stop hz =>
    intro cs
    obtain ⟨n, rfl⟩ : ∃ k, n = k + 1 := ⟨n - 1, by omega⟩
    rw [stringLoop_stop, State.memRead_snd, State.emit_touch, State.memRead_snd, List.append_nil]
    rw [State.memRead_fst, State.emit_touch]; exact hz
  | @more m a s t bs hz _ ih =>
    intro cs
    obtain ⟨n, rfl⟩ : ∃ k, n = k + 1 := ⟨n - 1, by omega⟩
    have e : ((s.emit cs).memRead a).1 = (s.memRead a).1 := by
      rw [State.memRead_fst, State.emit_touch]; rfl
    rw [stringLoop_more _ _ _ _ (e ▸ hz), e, State.memRead_snd, State.emit_touch, State.emit_emit,
      ← State.memRead_snd, ih n (by omega), List.append_assoc]

end

/-! ### The dispatch (R160) -/

/-- Everything the dispatch can do. -/
theorem State.trapDispatch_cases (v : Byte) :
    (v = 0x20#8 ∧ s.trapDispatch v = s.tryGetc) ∨ (v = 0x21#8 ∧ s.trapDispatch v = s.serviceOut) ∨
    (v = 0x22#8 ∧ s.trapDispatch v = s.serviceString .puts) ∨ (v = 0x23#8 ∧ s.trapDispatch v = s.serviceIn) ∨
    (v = 0x24#8 ∧ s.trapDispatch v = s.serviceString .putsp) ∨ (v = 0x25#8 ∧ s.trapDispatch v = s.serviceHalt) ∨
    ((v.toNat < 0x20 ∨ 0x25 < v.toNat) ∧ s.trapDispatch v = s.serviceUnknown v) := by
  have key : v = 0x20#8 ∨ v = 0x21#8 ∨ v = 0x22#8 ∨ v = 0x23#8 ∨ v = 0x24#8 ∨ v = 0x25#8 ∨
      ((v.toNat < 0x20 ∨ 0x25 < v.toNat) ∧ v ≠ 0x20#8 ∧ v ≠ 0x21#8 ∧ v ≠ 0x22#8 ∧ v ≠ 0x23#8 ∧ v ≠ 0x24#8 ∧
        v ≠ 0x25#8) := by
    revert v; decide
  rcases key with h | h | h | h | h | h | ⟨h, h0, h1, h2, h3, h4, h5⟩ <;>
    simp [State.trapDispatch, *]

end Sys2Proof.Machine
end

