-- ==== Sys2Proof/Laws/Strings.lean ====
section
/-! SUPPORT. A string routine that ends, ends in one step: the count of the reads a step may make is enough (log 14). -/

namespace Sys2Proof.Machine

variable (s : State)

/-! ### The answers that end a string routine (log 14) -/

theorem nonNul_ne_zero (b : Byte) : nonNul b ≠ 0 := by
  unfold nonNul
  split
  · decide
  · assumption

@[simp] theorem endsString_nonNul (b : Byte) : endsString (some (nonNul b)) = false := by
  simpa [endsString] using nonNul_ne_zero b

@[simp] theorem endsString_stretchEnd (z : Bool) : endsString (stretchEnd z) = true := by
  cases z <;> rfl

theorem endsString_false {x : Option Byte} (h : endsString x = false) : ∃ c : Byte, x = some c ∧ c ≠ 0 := by
  cases x with
  | none => simp [endsString] at h
  | some c => exact ⟨c, rfl, by simpa [endsString] using h⟩

theorem firstEnding_append (xs ys : List (Option Byte)) (later : Option Nat) :
    firstEnding (xs ++ ys) later = firstEnding xs (firstEnding ys later) := by
  induction xs with
  | nil => rfl
  | cons x xs ih => simp [firstEnding, ih]

theorem firstEnding_nonNul (bs : List Byte) (later : Option Nat) :
    firstEnding (bs.map (fun d => some (nonNul d))) later = later.map (· + bs.length) := by
  induction bs with
  | nil => simp [firstEnding]
  | cons b bs ih => simp [firstEnding, ih, Function.comp_def, Nat.add_assoc]

/-- The count looks one question ahead: it is the whole specification of `firstEnding`. -/
theorem InputChannel.firstEnding_ask (c : InputChannel) :
    c.firstEnding = if endsString c.ask.1 then some 0 else c.ask.2.firstEnding.map (· + 1) := by
  obtain ⟨answers, later⟩ := c
  cases answers with
  | cons x xs => rfl
  | nil =>
    cases later with
    | repeating x xs =>
      cases xs with
      | nil =>
        cases h : endsString x <;>
          simp [InputChannel.firstEnding, LaterInput.firstEnding, Machine.firstEnding, LaterInput.ask, h]
      | cons y ys =>
        cases h : endsString x
        · have e : Machine.firstEnding (ys ++ [x]) none = Machine.firstEnding ys none := by
            rw [firstEnding_append]; simp [Machine.firstEnding, h]
          simp [InputChannel.firstEnding, LaterInput.firstEnding, Machine.firstEnding, LaterInput.ask, h, e]
        · simp [InputChannel.firstEnding, LaterInput.firstEnding, Machine.firstEnding, LaterInput.ask, h]
    | unknown n =>
      rcases h : Config.inputStretch n with _ | ⟨_ | ⟨b, bs⟩, z⟩ <;>
        simp [InputChannel.firstEnding, LaterInput.firstEnding, Machine.firstEnding, LaterInput.ask, h,
          firstEnding_append, firstEnding_nonNul]
    | unending n => simp [InputChannel.firstEnding, LaterInput.firstEnding, Machine.firstEnding, LaterInput.ask]

/-- What a poll whose answer ends no string can do: neither KBSR nor KBDR is left zero. -/
theorem State.touch_kbsr_of_more (h : endsString s.input.ask.1 = false) :
    (s.touch s.config.kbsrAddr).input = s.input.ask.2 ∧ (s.touch s.config.kbsrAddr).cell s.config.kbsrAddr ≠ 0 ∧
      ∀ b, b ≠ s.config.kbsrAddr → s.cell b ≠ 0 → (s.touch s.config.kbsrAddr).cell b ≠ 0 := by
  obtain ⟨c, hc, hz⟩ := endsString_false h
  have hx : zext16 c ≠ 0 := fun e => hz (by
    have := congrArg BitVec.toNat e
    simp only [zext16, BitVec.toNat_setWidth] at this
    exact BitVec.eq_of_toNat_eq (by have := c.isLt; simp at *; omega))
  rcases s.polled_cases with ⟨d, rest, q, e⟩ | ⟨rest, q, e⟩
  · obtain rfl : d = c := by rw [q] at hc; simpa using hc
    rw [State.touch_kbsr, e]
    refine ⟨by simp [q], ?_, fun b hb hs => ?_⟩
    · simp only [State.setCell_cell]; split <;> simp_all
    · simp only [State.setCell_cell]; split <;> simp_all
  · rw [q] at hc; simp at hc

/-- While the reads stay off KBSR they leave the state alone, and every cell read so far is non-zero. -/
theorem StringRun.skip {mode : StringMode} {n : Nat} {a : Word} {bs : List Byte} {u : State}
    (h : StringRun mode n a s bs u) (d : Nat) (hd : ∀ i, i < d → a + BitVec.ofNat 16 i ≠ s.config.kbsrAddr) :
    n < d ∨ (d ≤ n ∧ ∃ cs, StringRun mode (n - d) (a + BitVec.ofNat 16 d) s cs u) := by
  induction d with
  | zero => exact .inr ⟨by omega, bs, by simpa using h⟩
  | succ d ih =>
    rcases ih (fun i hi => hd i (by omega)) with hn | ⟨hn, cs, hr⟩
    · exact .inl (by omega)
    · have ht := s.touch_of_ne (hd d (by omega))
      generalize hm : n - d = m at hr
      cases hr with
      | stop _ => exact .inl (by omega)
      | @more m _ _ _ ds hz hr' =>
        rw [State.memRead_snd, ht] at hr'
        refine .inr ⟨by omega, ds, ?_⟩
        rw [show n - (d + 1) = m by omega,
          show a + BitVec.ofNat 16 (d + 1) = a + BitVec.ofNat 16 d + 1 by
            apply BitVec.eq_of_toNat_eq; simp; omega]
        exact hr'

theorem word_add_sub_toNat (a b : Word) : a + BitVec.ofNat 16 (b - a).toNat = b := by
  apply BitVec.eq_of_toNat_eq; simp; omega

theorem word_add_ofNat_ne {a b : Word} {i : Nat} (h : i < (b - a).toNat) : a + BitVec.ofNat 16 i ≠ b := by
  rintro rfl
  have := a.isLt
  simp at h; omega

/-- Once KBDR is zero a run reads it, and ends, before it polls again. -/
theorem StringRun.lt_of_kbdr_zero {mode : StringMode} {n : Nat} {bs : List Byte} {u : State}
    (h : StringRun mode n (s.config.kbsrAddr + 1) s bs u) (hk : s.config.wf) (hz : s.cell s.config.kbdrAddr = 0) :
    n < 65536 := by
  have hlt : (s.config.kbdrAddr - (s.config.kbsrAddr + 1)).toNat < 65535 := by
    have hne : s.config.kbdrAddr.toNat ≠ s.config.kbsrAddr.toNat := fun e => hk (BitVec.eq_of_toNat_eq e.symm)
    simp; omega
  rcases StringRun.skip s h (s.config.kbdrAddr - (s.config.kbsrAddr + 1)).toNat (fun i hi => by
    have := s.config.kbsrAddr.isLt
    intro e; have := congrArg BitVec.toNat e; simp at this; omega) with hn | ⟨hn, cs, hr⟩
  · omega
  · rw [word_add_sub_toNat] at hr
    generalize hm : n - (s.config.kbdrAddr - (s.config.kbsrAddr + 1)).toNat = m at hr
    cases hr with
    | stop _ => omega
    | more hnz _ =>
      rw [State.memRead_fst, s.touch_of_ne (fun e => hk e.symm)] at hnz
      exact absurd hz hnz

/-- A run is over at the latest one round after the first poll whose answer ends it. -/
theorem StringRun.lt_of_some {mode : StringMode} {k : Nat} : ∀ {n : Nat} {a : Word} {s : State} {bs : List Byte}
    {u : State}, StringRun mode n a s bs u → s.input.firstEnding = some k →
      n < (s.config.kbsrAddr - a).toNat + 65536 * (k + 1) + 1 := by
  induction k with
  | zero =>
    intro n a s bs u h hk
    rcases StringRun.skip s h _ (fun i hi => word_add_ofNat_ne hi) with hn | ⟨hn, cs, hr⟩
    · omega
    · rw [word_add_sub_toNat] at hr
      generalize hm : n - (s.config.kbsrAddr - a).toNat = m at hr
      cases hr with
      | stop _ => omega
      | @more m _ _ _ ds hz hr' =>
        rw [InputChannel.firstEnding_ask] at hk
        have he : endsString s.input.ask.1 = true := by
          by_contra hc; simp [hc] at hk
        rw [State.memRead_fst] at hz
        rw [State.memRead_snd] at hr'
        rw [State.touch_kbsr] at hz hr'
        rcases s.polled_cases with ⟨c, rest, q, e⟩ | ⟨rest, q, e⟩
        · obtain rfl : c = 0 := by simpa [q, endsString] using he
          have hwf : s.config.wf := by
            intro e'; rw [e] at hz; simp [← e', zext16] at hz
          have := StringRun.lt_of_kbdr_zero s.polled (by simpa using hr') (by simpa using hwf)
            (by rw [e]; simp [zext16])
          omega
        · rw [e] at hz; simp at hz
  | succ k ih =>
    intro n a s bs u h hk
    rcases StringRun.skip s h _ (fun i hi => word_add_ofNat_ne hi) with hn | ⟨hn, cs, hr⟩
    · omega
    · rw [word_add_sub_toNat] at hr
      generalize hm : n - (s.config.kbsrAddr - a).toNat = m at hr
      cases hr with
      | stop _ => omega
      | @more m _ _ _ ds hz hr' =>
        rw [InputChannel.firstEnding_ask] at hk
        have he : endsString s.input.ask.1 = false := by
          by_contra hc; rw [if_pos (by simpa using hc)] at hk; simp at hk
        simp only [he, Bool.false_eq_true, if_false, Option.map_eq_some_iff] at hk
        obtain ⟨j, hj, hjk⟩ := hk
        obtain rfl : j = k := by omega
        rw [State.memRead_snd] at hr'
        have := ih hr' (by rw [(s.touch_kbsr_of_more he).1, hj])
        have hd : (s.config.kbsrAddr - (s.config.kbsrAddr + 1)).toNat = 65535 := by simp
        rw [State.touch_config, hd] at this
        omega

/-- If no answer ends a string, a run that is not over after one round is never over. -/
theorem StringRun.lt_of_none {mode : StringMode} {n : Nat} {a : Word} {s : State} {bs : List Byte} {u : State}
    (h : StringRun mode n a s bs u) : ∀ j, s.input.firstEnding = none →
      (∀ i, 1 ≤ i → i ≤ j → a - BitVec.ofNat 16 i = s.config.kbsrAddr ∨ s.cell (a - BitVec.ofNat 16 i) ≠ 0) →
      n + j < 65536 := by
  have hask : ∀ t : State, t.input.firstEnding = none →
      endsString t.input.ask.1 = false ∧ t.input.ask.2.firstEnding = none := by
    intro t ht
    rw [InputChannel.firstEnding_ask] at ht
    cases he : endsString t.input.ask.1 <;> simp_all
  induction h with
  | @stop a s hz =>
    intro j hn hj
    by_contra hlt
    rw [State.memRead_fst] at hz
    have hl := hj 65536 (by omega) (by omega)
    rw [show a - BitVec.ofNat 16 65536 = a by simp] at hl
    by_cases ha : a = s.config.kbsrAddr
    · subst ha; exact (s.touch_kbsr_of_more (hask s hn).1).2.1 hz
    · rw [s.touch_of_ne ha] at hz
      rcases hl with hl | hl
      · exact ha hl
      · exact hl hz
  | @more n a s t bs hz _ ih =>
    intro j hn hj
    rw [State.memRead_fst] at hz
    simp only [State.memRead_snd, State.touch_config] at ih
    have hm := hask s hn
    have := ih (j + 1) (by
      rcases s.touch_cases a with ⟨ha, _⟩ | ⟨ha, e⟩
      · rw [ha, (s.touch_kbsr_of_more hm.1).1]; exact hm.2
      · rw [e]; exact hn) (by
      intro i h1 h2
      obtain ⟨i, rfl⟩ : ∃ k, i = k + 1 := ⟨i - 1, by omega⟩
      rw [show a + 1 - BitVec.ofNat 16 (i + 1) = a - BitVec.ofNat 16 i by
        apply BitVec.eq_of_toNat_eq; simp; omega]
      by_cases hi : i = 0
      · subst hi; exact .inr (by simpa using hz)
      · rcases hj i (by omega) (by omega) with hl | hl
        · exact .inl hl
        · by_cases hk : a - BitVec.ofNat 16 i = s.config.kbsrAddr
          · exact .inl hk
          · rcases s.touch_cases a with ⟨ha, _⟩ | ⟨ha, e⟩
            · exact .inr (by
                have := (s.touch_kbsr_of_more hm.1).2.2 _ hk hl
                rwa [← ha] at this)
            · exact .inr (by rw [e]; exact hl))
    omega

theorem State.stringReads_none (h : s.input.firstEnding = none) : s.stringReads = 65536 * 1 := by
  unfold State.stringReads; simp only [h]

theorem State.stringReads_some {k : Nat} (h : s.input.firstEnding = some k) : s.stringReads = 65536 * (k + 2) := by
  unfold State.stringReads; rw [h]

/-- Every string that ends, ends within the reads one step may make (R112, R163). -/
theorem StringRun.lt_stringReads {mode : StringMode} {n : Nat} {a : Word} {s : State} {bs : List Byte} {u : State}
    (h : StringRun mode n a s bs u) : n < s.stringReads := by
  cases hk : s.input.firstEnding with
  | none =>
    rw [s.stringReads_none hk]
    have := StringRun.lt_of_none h 0 hk (fun i h1 h2 => by omega)
    omega
  | some k =>
    have h1 := StringRun.lt_of_some h hk
    have h2 : (s.config.kbsrAddr - a).toNat < 65536 := BitVec.isLt _
    rw [s.stringReads_some hk]
    exact h1.trans_le (by rw [show k + 2 = 1 + (k + 1) by omega, Nat.mul_add 65536 1]; omega)

/-! ### Everything a string routine can do -/

/-- A loop ends its string within its reads or has made them all. -/
theorem stringLoop_cases (mode : StringMode) (n : Nat) (a : Word) :
    (∃ m bs u, m < n ∧ StringRun mode m a s bs u) ∨
      (stringLoop mode n a s).activity = mode.activity (a + BitVec.ofNat 16 n) := by
  suffices H : ∀ n a (s : State) , (∃ m bs u, m < n ∧ StringRun mode m a s bs u) ∨
      ∀ cs, (stringLoop mode n a (s.emit cs)).activity = mode.activity (a + BitVec.ofNat 16 n) by
    rcases H n a s with h | h
    · exact .inl h
    · exact .inr (by simpa using h [])
  intro n
  induction n with
  | zero => intro a s; exact .inr (fun cs => by simp [stringLoop])
  | succ n ih =>
    intro a s
    by_cases hz : (s.memRead a).1 = 0
    · exact .inl ⟨0, [], _, by omega, .stop hz⟩
    · rcases ih (a + 1) (s.memRead a).2 with ⟨m, bs, u, hm, hr⟩ | h
      · exact .inl ⟨m + 1, _, u, by omega, .more hz hr⟩
      · refine .inr (fun cs => ?_)
        have e : ((s.emit cs).memRead a).1 = (s.memRead a).1 := by
          rw [State.memRead_fst, State.emit_touch]; rfl
        rw [stringLoop_more _ _ _ _ (e ▸ hz), e, State.memRead_snd, State.emit_touch, State.emit_emit,
          ← State.memRead_snd, h]
        congr 1; apply BitVec.eq_of_toNat_eq; simp; omega

theorem stringReads_round (a : Word) : a + BitVec.ofNat 16 s.stringReads = a := by
  have h : s.stringReads % 65536 = 0 := by
    cases hk : s.input.firstEnding with
    | none => have := s.stringReads_none hk; omega
    | some k => have := s.stringReads_some hk; omega
  apply BitVec.eq_of_toNat_eq
  rw [BitVec.toNat_add, BitVec.toNat_ofNat]; omega

/-- Everything a string routine can do in its step: it ends, having done what the run of reads says; or no run of reads
ends, and it stands where it began (R112, R163). -/
theorem stringLoop_stringReads_cases (mode : StringMode) (a : Word) :
    (∃ n bs u, StringRun mode n a s bs u ∧ stringLoop mode s.stringReads a s = (u.emit bs).setActivity .idle) ∨
      ((∀ n bs u, ¬ StringRun mode n a s bs u) ∧
        (stringLoop mode s.stringReads a s).activity = mode.activity a) := by
  by_cases h : ∃ n bs u, StringRun mode n a s bs u
  · obtain ⟨n, bs, u, hr⟩ := h
    exact .inl ⟨n, bs, u, hr, stringLoop_of_run s mode _ a hr hr.lt_stringReads⟩
  · refine .inr ⟨fun n bs u hr => h ⟨n, bs, u, hr⟩, ?_⟩
    rcases stringLoop_cases s mode s.stringReads a with ⟨m, bs, u, -, hr⟩ | e
    · exact absurd ⟨m, bs, u, hr⟩ h
    · rw [e, stringReads_round]

end Sys2Proof.Machine
end

