-- ==== Sys2Proof/Tests/Slice0.lean ====
section
/-! SUPPORT. The model's own tests. Expected results are those of spec/95_test_vectors.md (named V-<family> or E<n> in the
comments), of R83 to R91 of spec/30_encoding.md for the words, or of the rule named. The theorems called witness_ show
that the hypotheses of a statement of Certificates/Slice0/Obligations.lean can be met, clause by clause. -/

namespace Sys2Proof.Tests

open Sys2Proof Sys2Proof.Machine

/-! ### Helpers -/

/-- A file of registers with R0 to R3, R6, R7 given and zero in R4, R5. -/
def regs (r0 r1 r2 r3 r6 r7 : Word) : Regs := ⟨r0, r1, r2, r3, 0, 0, r6, r7⟩

/-- All registers zero. -/
def zeros : Regs := regs 0 0 0 0 0 0

/-- A launch state with some cells loaded, no input and no stop request. -/
def quiet (g : Regs) (writes : List (Word × Word)) : State :=
  State.launch g writes ⟨[], .ended⟩ .never Config.default

/-- A launch state whose input channel answers the first questions with these. -/
def typed (g : Regs) (writes : List (Word × Word)) (answers : List (Option Byte)) : State :=
  State.launch g writes ⟨answers, .ended⟩ .never Config.default

/-- `s` with the pc at `a` and the word `w` there. -/
def State.here (s : State) (a w : Word) : State := (s.setPc a).setCell a w

/-- `s` as the launch state of an implementation with the policy `nop`. -/
def State.noop (s : State) : State := s.withPolicy .nop

/-- The outcome is a next state of which `p` holds. -/
def nextHas (o : Host.Outcome State Fault Refusal) (p : State → Bool) : Bool :=
  match o with
  | .next t => p t
  | .fault _ => false
  | .refused _ => false

/-- The next state. -/
def nextOf (o : Host.Outcome State Fault Refusal) (s : State) : State :=
  match o with
  | .next t => t
  | .fault _ => s
  | .refused _ => s

/-! ### Well-formedness: each check refuses a term that violates it -/

theorem test_wf_add_imm5_refused : Instr.wf (.addImm .r0 .r0 16) = false := by decide
theorem test_wf_and_imm5_refused : Instr.wf (.andImm .r0 .r0 0xFFEF) = false := by decide
theorem test_wf_br_off9_refused : Instr.wf (.br true true true 256) = false := by decide
theorem test_wf_jsr_off11_refused : Instr.wf (.jsr 1024) = false := by decide
theorem test_wf_ld_off9_refused : Instr.wf (.ld .r0 0xFEFF) = false := by decide
theorem test_wf_ldi_off9_refused : Instr.wf (.ldi .r0 256) = false := by decide
theorem test_wf_ldr_off6_refused : Instr.wf (.ldr .r0 .r1 32) = false := by decide
theorem test_wf_lea_off9_refused : Instr.wf (.lea .r0 256) = false := by decide
theorem test_wf_st_off9_refused : Instr.wf (.st .r0 256) = false := by decide
theorem test_wf_sti_off9_refused : Instr.wf (.sti .r0 256) = false := by decide
theorem test_wf_str_off6_refused : Instr.wf (.str .r0 .r1 0xFFDF) = false := by decide
theorem test_wf_trap_served_refused : Instr.wf (.trap 0x25) = false := by decide
theorem test_wf_boundaries_accepted :
    Instr.wf (.addImm .r0 .r0 0xFFF0) = true ∧ Instr.wf (.ldr .r0 .r0 31) = true ∧
      Instr.wf (.ld .r0 0xFF00) = true ∧ Instr.wf (.jsr 0xFC00) = true ∧ Instr.wf (.trap 0x26) = true := by decide

/-! ### Sign extension (V-SEXT) -/

theorem test_sext_5_6 :
    sext (0x0F : BitVec 5) = 0x000F ∧ sext (0x10 : BitVec 5) = 0xFFF0 ∧ sext (0x1F : BitVec 5) = 0xFFFF ∧
      sext (0x1F : BitVec 6) = 0x001F ∧ sext (0x20 : BitVec 6) = 0xFFE0 ∧ sext (0x3F : BitVec 6) = 0xFFFF := by decide
theorem test_sext_9_11 :
    sext (0x0FF : BitVec 9) = 0x00FF ∧ sext (0x100 : BitVec 9) = 0xFF00 ∧ sext (0x1FF : BitVec 9) = 0xFFFF ∧
      sext (0x3FF : BitVec 11) = 0x03FF ∧ sext (0x400 : BitVec 11) = 0xFC00 ∧ sext (0x7FF : BitVec 11) = 0xFFFF := by
  decide

/-! ### Decoding: for every constructor a word written out from R82 to R84, opcode first -/

theorem test_decode_addReg : decode 0b0001_011_101_0_00_110 = .addReg .r3 .r5 .r6 := by decide
theorem test_decode_addImm : decode 0b0001_010_001_1_10000 = .addImm .r2 .r1 0xFFF0 := by decide
theorem test_decode_andReg : decode 0b0101_000_001_0_00_010 = .andReg .r0 .r1 .r2 := by decide
theorem test_decode_andImm : decode 0b0101_001_001_1_01111 = .andImm .r1 .r1 0x000F := by decide
theorem test_decode_notReg : decode 0b1001_000_001_111111 = .notReg .r0 .r1 := by decide
theorem test_decode_br : decode 0b0000_100_000000101 = .br true false false 5 := by decide
theorem test_decode_jmp : decode 0b1100_000_010_000000 = .jmp .r2 := by decide
theorem test_decode_jsr : decode 0b0100_1_10000000000 = .jsr 0xFC00 := by decide
theorem test_decode_jsrr : decode 0b0100_0_00_010_000000 = .jsrr .r2 := by decide
theorem test_decode_ld : decode 0b0010_001_111111111 = .ld .r1 0xFFFF := by decide
theorem test_decode_ldi : decode 0b1010_000_000000101 = .ldi .r0 5 := by decide
theorem test_decode_ldr : decode 0b0110_011_010_100000 = .ldr .r3 .r2 0xFFE0 := by decide
theorem test_decode_lea : decode 0b1110_000_000000011 = .lea .r0 3 := by decide
theorem test_decode_st : decode 0b0011_001_000000101 = .st .r1 5 := by decide
theorem test_decode_sti : decode 0b1011_001_000000101 = .sti .r1 5 := by decide
theorem test_decode_str : decode 0b0111_000_110_111111 = .str .r0 .r6 0xFFFF := by decide
theorem test_decode_trap : decode 0b1111_0000_00100110 = .trap 0x26 := by decide
theorem test_decode_getc : decode 0b1111_0000_00100000 = .getc := by decide
theorem test_decode_outChar : decode 0b1111_0000_00100001 = .outChar := by decide
theorem test_decode_puts : decode 0b1111_0000_00100010 = .puts := by decide
theorem test_decode_inChar : decode 0b1111_0000_00100011 = .inChar := by decide
theorem test_decode_putsp : decode 0b1111_0000_00100100 = .putsp := by decide
theorem test_decode_halt : decode 0b1111_0000_00100101 = .halt := by decide
theorem test_decode_rti : decode 0b1000_111111111111 = .rti := by decide
theorem test_decode_res : decode 0b1101_101010111100 = .res := by decide

/-- Ignored bits of R86 (V-ALU, V-JMP, V-TRAP). -/
theorem test_decode_ignored_bits :
    decode 0x105A = decode 0x1042 ∧ decode 0x9040 = decode 0x907F ∧ decode 0xCEBF = decode 0xC080 ∧
      decode 0xFA20 = decode 0xF020 := by decide

/-- `encode` writes the words of V-ALU, V-BR, V-JMP, V-LD, V-ST. -/
theorem test_encode :
    encode (.addReg .r0 .r1 .r2) = 0x1042 ∧ encode (.andImm .r1 .r1 0xFFF0) = 0x5270 ∧
      encode (.notReg .r0 .r1) = 0x907F ∧ encode (.br false true true 5) = 0x0605 ∧
      encode (.jsr 0xFFFF) = 0x4FFF ∧ encode (.jsrr .r7) = 0x41C0 ∧ encode (.ldr .r3 .r2 31) = 0x669F ∧
      encode (.sti .r1 0) = 0xB200 ∧ encode .putsp = 0xF024 := by decide

/-- The table word of RET is read whole, and a row of more than one word is none (R80). -/
theorem test_decodeTableWord : decodeTableWord 16 0xC1C0 = some (.jmp .r7) ∧ decodeTableWord 32 0xC1C0 = none := by
  decide

/-! ### Run start and loading -/

/-- E7's image bytes are the three words of program P1 at 0x3000 (R211). -/
theorem test_image_E7 :
    imageWrites [0x30, 0x00, 0x50, 0x20, 0x10, 0x25, 0xF0, 0x25] =
      some [(0x3000, 0x5020), (0x3001, 0x1025), (0x3002, 0xF025)] := by decide

/-- A word that would lie past 0xFFFF is not placed (R211), and an odd byte is not described (N14). -/
theorem test_image_edges :
    imageWrites [0xFF, 0xFF, 0x12, 0x34, 0x56, 0x78] = some [(0xFFFF, 0x1234)] ∧
      imageWrites [0x30, 0x00, 0x50] = none := by decide

/-- V-RESET: with nothing loaded a step runs the zero cell, a BR that never branches. -/
theorem test_reset_runs_nop :
    nextHas (step State.reset) (fun t => t.pc == 0x3001 && t.cond == .zero && t.run == .running) = true := by decide

/-- The host's placement runs the placed instruction in the very next step, also from a pc at KBSR. -/
theorem test_withFetchWord :
    nextHas (step (State.reset.withFetchWord 16 0xF025)) (fun t => t.run == .halted && t.reg .r7 == 0x3001) = true ∧
      nextHas (step ((State.reset.setPc 0xFE00).withFetchWord 16 0xF025))
        (fun t => t.run == .halted && t.reg .r7 == 0xFE02) = true := by decide

/-! ### One step of every instruction -/

/-- V-ALU: signed overflow is silent, and the flags read bit 15. -/
theorem test_addReg :
    nextHas (step (State.here (quiet (regs 0 0x7FFF 1 0 0 0) []) 0x3000 0x1042))
      (fun t => t.reg .r0 == 0x8000 && t.cond == .negative && t.pc == 0x3001) = true := by decide
theorem test_addReg_same_three_times :
    nextHas (step (State.here (quiet (regs 0 0 0 0x1234 0 0) []) 0x3000 0x16C3))
      (fun t => t.reg .r3 == 0x2468 && t.cond == .positive) = true := by decide
theorem test_addImm_wraps :
    nextHas (step (State.here (quiet (regs 0 0xFFF1 7 0 0 0) []) 0x3000 0x146F))
      (fun t => t.reg .r2 == 0 && t.cond == .zero && t.reg .r1 == 0xFFF1) = true := by decide
theorem test_addImm_negative :
    nextHas (step (State.here (quiet zeros []) 0x3000 0x127F))
      (fun t => t.reg .r1 == 0xFFFF && t.cond == .negative) = true := by decide
theorem test_andReg :
    nextHas (step (State.here (quiet (regs 0 0xFF0F 0x0FF0 0 0 0) []) 0x3000 0x5042))
      (fun t => t.reg .r0 == 0x0F00 && t.cond == .positive) = true := by decide
theorem test_andImm_mask_is_extended :
    nextHas (step (State.here (quiet (regs 0 0xABCD 0 0 0 0) []) 0x3000 0x5270))
      (fun t => t.reg .r1 == 0xABC0 && t.cond == .negative) = true := by decide
theorem test_notReg :
    nextHas (step (State.here (quiet (regs 0 0x8000 0 0 0 0) []) 0x3000 0x907F))
      (fun t => t.reg .r0 == 0x7FFF && t.cond == .positive) = true := by decide

/-- V-BR: the flags of BRzp against COND = Z and COND = N. -/
theorem test_br :
    nextHas (step (State.here (quiet zeros []) 0x3000 0x0605)) (fun t => t.pc == 0x3006 && t.cond == .zero) = true ∧
      nextHas (step (State.here ((quiet zeros []).setCond .negative) 0x3000 0x0605))
        (fun t => t.pc == 0x3001 && t.cond == .negative) = true := by decide
theorem test_br_wraps :
    nextHas (step (State.here (quiet zeros []) 0xFFFF 0x0E01)) (fun t => t.pc == 1) = true ∧
      nextHas (step (State.here ((quiet zeros []).setCond .positive) 0x3005 0x03FD)) (fun t => t.pc == 0x3003) = true := by
  decide
theorem test_jmp_ret :
    nextHas (step (State.here (quiet (regs 0 0 0 0 0 0x3002) []) 0x3006 0xC1C0))
      (fun t => t.pc == 0x3002 && t.reg .r7 == 0x3002) = true := by decide
theorem test_jsr :
    nextHas (step (State.here (quiet zeros []) 0x3000 0x4C00))
      (fun t => t.reg .r7 == 0x3001 && t.pc == 0x2C01 && t.cond == .zero) = true := by decide
theorem test_jsrr :
    nextHas (step (State.here (quiet (regs 0 0 0x4000 0 0 0) []) 0x3000 0x4080))
      (fun t => t.reg .r7 == 0x3001 && t.pc == 0x4000) = true := by decide
/-- V-JMP, decision D7. -/
theorem test_jsrr_r7_falls_through :
    nextHas (step (State.here (quiet (regs 0 0 0 0 0 0x5000) []) 0x3000 0x41C0))
      (fun t => t.reg .r7 == 0x3001 && t.pc == 0x3001) = true := by decide

/-- V-LD: LD at its own word. -/
theorem test_ld_itself :
    nextHas (step (State.here (quiet zeros []) 0x3000 0x23FF))
      (fun t => t.reg .r1 == 0x23FF && t.cond == .positive) = true := by decide
/-- V-LD: a load of KBSR with a key available polls and takes the character. -/
theorem test_ld_polls :
    nextHas (step (State.here (typed zeros [] [some 0x41]) 0xFDFF 0x2000))
      (fun t => t.reg .r0 == 0x8000 && t.cond == .negative && t.cell 0xFE00 == 0x8000 && t.cell 0xFE02 == 0x0041 &&
        t.input == ⟨[], .ended⟩ && t.pc == 0xFE00) = true := by decide
theorem test_ldi :
    nextHas (step (State.here (quiet zeros [(0x3006, 0x4000), (0x4000, 0xBEEF)]) 0x3000 0xA005))
      (fun t => t.reg .r0 == 0xBEEF && t.cond == .negative) = true := by decide
/-- V-LD: LDI through a pointer to KBSR, no key: KBSR is cleared and KBDR stays. -/
theorem test_ldi_no_key :
    nextHas (step (State.here (quiet zeros [(0x3006, 0xFE00), (0xFE00, 0x8000), (0xFE02, 0x0042)]) 0x3000 0xA005))
      (fun t => t.reg .r0 == 0 && t.cond == .zero && t.cell 0xFE00 == 0 && t.cell 0xFE02 == 0x0042) = true := by decide
theorem test_ldr_wraps :
    nextHas (step (State.here (quiet zeros [(0xFFFF, 0x8000)]) 0x3000 0x66BF))
      (fun t => t.reg .r3 == 0x8000 && t.cond == .negative) = true := by decide
/-- V-LD: DR = BaseR. -/
theorem test_ldr_dest_is_base :
    nextHas (step (State.here (quiet (regs 0 0 0x4000 0 0 0) [(0x4000, 0x4001)]) 0x3000 0x6480))
      (fun t => t.reg .r2 == 0x4001 && t.cond == .positive) = true := by decide
/-- E8. -/
theorem test_lea :
    nextHas (step (State.here (quiet zeros []) 0x3000 0xE003))
      (fun t => t.reg .r0 == 0x3004 && t.pc == 0x3001 && t.cond == .positive) = true := by decide
theorem test_lea_wraps :
    nextHas (step (State.here ((quiet (regs 5 0 0 0 0 0) []).setCond .positive) 0xFFFF 0xE000))
      (fun t => t.reg .r0 == 0 && t.pc == 0 && t.cond == .zero) = true := by decide
/-- V-ST: a store sets no flag. -/
theorem test_st :
    nextHas (step (State.here (quiet (regs 0 0xFF00 0 0 0 0) []) 0x3002 0x3205))
      (fun t => t.cell 0x3008 == 0xFF00 && t.cond == .zero && t.cell 0x3007 == 0) = true := by decide
theorem test_sti :
    nextHas (step (State.here (quiet (regs 0 0xFF00 0 0 0 0) [(0x3009, 0x4000)]) 0x3003 0xB205))
      (fun t => t.cell 0x4000 == 0xFF00 && t.cell 0x3009 == 0x4000) = true := by decide
/-- V-ST: the pointer cell is KBSR and a key is available. -/
theorem test_sti_pointer_polls :
    nextHas (step (State.here (typed (regs 0 0x58 0 0 0 0) [] [some 0x41]) 0xFDFF 0xB200))
      (fun t => t.cell 0x8000 == 0x58 && t.cell 0xFE00 == 0x8000 && t.cell 0xFE02 == 0x41 && t.input == ⟨[], .ended⟩) =
      true := by decide
theorem test_str_wraps :
    nextHas (step (State.here (quiet (regs 0x1234 0 0 0 0xFFF0 0) []) 0x3000 0x719F))
      (fun t => t.cell 0x000F == 0x1234) = true := by decide
theorem test_str_source_is_base :
    nextHas (step (State.here (quiet (regs 0 0 0 0 0x4000 0) []) 0x3000 0x7D80))
      (fun t => t.cell 0x4000 == 0x4000) = true := by decide

/-- E9. -/
theorem test_getc :
    nextHas (step (State.here (typed zeros [] [some 0x41]) 0x3000 0xF020))
      (fun t => t.reg .r0 == 0x0041 && t.reg .r7 == 0x3001 && t.output == [] && t.cond == .zero &&
        t.input == ⟨[], .ended⟩ && t.activity == .idle) = true := by decide
/-- V-TRAP: no input, so the core holds, and the stop request ends the hold. -/
theorem test_getc_holds_and_is_cancelled :
    nextHas (step (State.here (quiet (regs 7 0 0 0 0 0) []) 0x3000 0xF020))
      (fun t => t.activity == .getc && t.run == .running && nextHas (step (t.setStop (.after 0)))
        (fun u => u.run == .cancelled && u.reg .r7 == 0x3001 && u.pc == 0x3001 && u.reg .r0 == 7)) = true := by decide
theorem test_outChar_low_byte :
    nextHas (step (State.here (quiet (regs 0x0141 0 0 0 0 0) []) 0x3000 0xF021))
      (fun t => t.output == [0x41] && t.reg .r0 == 0x0141) = true := by decide
/-- V-TRAP: the terminator is a wholly zero cell. -/
theorem test_puts_low_bytes :
    nextHas (step (State.here (quiet (regs 0x4000 0 0 0 0 0) [(0x4000, 0x0148), (0x4001, 0x0100)]) 0x3000 0xF022))
      (fun t => t.output == [0x48, 0x00] && t.reg .r0 == 0x4000 && t.activity == .idle) = true := by decide
theorem test_puts_wraps :
    nextHas (step (State.here (quiet (regs 0xFFFF 0 0 0 0 0) [(0xFFFF, 0x41), (0, 0x42)]) 0x3000 0xF022))
      (fun t => t.output == [0x41, 0x42]) = true := by decide
theorem test_inChar :
    nextHas (step (State.here (typed zeros [] [some 0x41]) 0x3000 0xF023))
      (fun t => t.output == Config.defaultPrompt ++ [0x41] && t.reg .r0 == 0x0041) = true := by decide
/-- R164: the prompt is written before the hold, once, and the echo after it. -/
theorem test_inChar_holds :
    nextHas (step (State.here (typed zeros [] [none, some 0x42]) 0x3000 0xF023))
      (fun t => t.output == Config.defaultPrompt && t.activity == .inChar && nextHas (step t)
        (fun u => u.output == Config.defaultPrompt ++ [0x42] && u.reg .r0 == 0x42 && u.activity == .idle)) = true := by
  decide
theorem test_putsp_odd_length :
    nextHas (step (State.here (quiet (regs 0x4000 0 0 0 0 0) [(0x4000, 0x4948), (0x4001, 0x0021)]) 0x3000 0xF024))
      (fun t => t.output == [0x48, 0x49, 0x21]) = true := by decide
theorem test_putsp_zero_low_byte :
    nextHas (step (State.here (quiet (regs 0x4000 0 0 0 0 0) [(0x4000, 0x4100)]) 0x3000 0xF024))
      (fun t => t.output == [0x00, 0x41]) = true := by decide
theorem test_halt :
    nextHas (step (State.here (quiet zeros []) 0x3000 0xF025))
      (fun t => t.output == [0x48, 0x41, 0x4C, 0x54, 0x0A] && t.run == .halted && t.reg .r7 == 0x3001) = true := by decide
theorem test_trap_unserved :
    nextHas (step (State.here (quiet zeros []) 0x3000 0xF026))
      (fun t => t.run == .faulted && t.fault == ⟨.unknownTrapVector, 0x26, 0x3000⟩ && t.reg .r7 == 0x3001) = true ∧
    nextHas (step (State.here (quiet zeros []) 0x3000 0xF01F))
      (fun t => t.run == .faulted && t.fault == ⟨.unknownTrapVector, 0x1F, 0x3000⟩) = true := by decide
/-- V-UNIMPL, both policies. -/
theorem test_rti :
    nextHas (step (State.here (quiet zeros []) 0x3000 0x8FFF))
      (fun t => t.run == .faulted && t.fault == ⟨.unimplementedOpcode, 8, 0x3000⟩ && t.pc == 0x3001 && t.reg .r7 == 0) =
      true ∧
    nextHas (step (State.here (State.noop (quiet zeros [])) 0x3000 0x8000))
      (fun t => t.run == .running && t.pc == 0x3001 && t.fault.kind == .none) = true := by decide
theorem test_res :
    nextHas (step (State.here (quiet zeros []) 0x3004 0xD000))
      (fun t => t.run == .faulted && t.fault == ⟨.unimplementedOpcode, 13, 0x3004⟩ && t.pc == 0x3005) = true ∧
    nextHas (step (State.here (State.noop (quiet zeros [])) 0x3000 0xDABC))
      (fun t => t.run == .running && t.pc == 0x3001) = true := by decide

/-- V-KBD, steps 1 to 4 and 5 to 7. -/
theorem test_keyboard_reads :
    let s := typed zeros [] [some 0x41, some 0x42]
    let a := s.memRead 0xFE02
    let b := a.2.memRead 0xFE00
    let c := b.2.memRead 0xFE02
    a.1 = 0 ∧ b.1 = 0x8000 ∧ c.1 = 0x0041 ∧ c.2.cell 0xFE00 = 0x8000 ∧ c.2.input = ⟨[some 0x42], .ended⟩ := by decide
theorem test_keyboard_writes :
    let s := (typed zeros [(0xFE02, 0x41)] [some 0x42]).memWrite 0xFE00 0x1234
    let a := s.memRead 0xFE00
    let b := a.2.memRead 0xFE00
    a.1 = 0x8000 ∧ a.2.cell 0xFE02 = 0x42 ∧ b.1 = 0 ∧ b.2.cell 0xFE02 = 0x42 := by decide

/-- A store of zero leaves no entry, so equal memories are equal data (log 1). -/
theorem test_memory_is_canonical :
    (((⟨[]⟩ : Memory).put 0x4000 7).put 0x3000 5).put 0x4000 0 = ⟨[(0x3000, 5)]⟩ := by decide

/-! ### Witnesses of the statements' hypotheses -/

theorem witness_DecodeOfEncodeIsIdentity : Instr.wf (.addImm .r7 .r0 0xFFF0) = true ∧ Instr.wf (.trap 0x1F) = true := by
  decide

theorem witness_IgnoredBitsDoNotMatter :
    ((0x1042#16).extractLsb' 12 4 = 1#4 ∧ (0x1042#16)[5] = false ∧ 0x0018#16 &&& 0xFFE7#16 = 0#16) ∧
    ((0x5042#16).extractLsb' 12 4 = 5#4 ∧ (0x5042#16)[5] = false ∧ 0x0018#16 &&& 0xFFE7#16 = 0#16) ∧
    ((0x907F#16).extractLsb' 12 4 = 9#4 ∧ 0x003F#16 &&& 0xFFC0#16 = 0#16) ∧
    ((0xC080#16).extractLsb' 12 4 = 12#4 ∧ 0x0E3F#16 &&& 0xF1C0#16 = 0#16) ∧
    ((0x4080#16).extractLsb' 12 4 = 4#4 ∧ (0x4080#16)[11] = false ∧ 0x063F#16 &&& 0xF9C0#16 = 0#16) ∧
    ((0xF020#16).extractLsb' 12 4 = 15#4 ∧ 0x0F00#16 &&& 0xF0FF#16 = 0#16) ∧
    ((0x8000#16).extractLsb' 12 4 = 8#4 ∧ (0xD000#16).extractLsb' 12 4 = 13#4 ∧ 0x0FFF#16 &&& 0xF000#16 = 0#16) := by
  decide

theorem witness_SignExtensionFollowsTheTopBit :
    (0 < 1 ∧ 1 ≤ 16) ∧ (0 < 16 ∧ 16 ≤ 16) ∧ (0x10 : BitVec 5).getLsbD 4 = true ∧ (0x0F : BitVec 5).getLsbD 4 = false := by
  decide

theorem witness_RunStartPcCondMemory :
    ∀ w ∈ [((0x3000 : Word), (0x5020 : Word)), (0x3002, 0xF025)], w.1 ≠ 0x3001 := by simp

theorem witness_LoaderWritesArePlainWrites : (0x3001 : Word) ≠ 0x3000 := by decide

theorem witness_ImmediateFormMatchesPreloadedRegister :
    (quiet (regs 0 0x10 0 0xFFF0 0 0) []).reg .r3 = sext (0x10 : BitVec 5) := by decide

theorem witness_FlagUpdateRule :
    FlagsFor 0x8000 .negative ∧ FlagsFor 0xFFFF .negative ∧ FlagsFor 0 .zero ∧ FlagsFor 1 .positive ∧
      FlagsFor 0x7FFF .positive := by
  simp [FlagsFor]

theorem witness_CondWrittenBySevenOpcodesReadByOne :
    (∃ t, exec (.addReg .r0 .r1 .r2) State.reset = .next t ∧ flagDest (.addReg .r0 .r1 .r2) = some .r0) ∧
    (∃ t, exec (.st .r0 0) State.reset = .next t ∧ flagDest (.st .r0 0) = none) ∧
    ∀ n z p off, Instr.jmp .r0 ≠ .br n z p off :=
  ⟨⟨_, rfl, rfl⟩, ⟨_, rfl, rfl⟩, fun _ _ _ _ => nofun⟩

theorem witness_BranchResult_taken : State.reset.cond = .zero ∧ (State.reset.setCond .negative).cond = .negative ∧
    (State.reset.setCond .positive).cond = .positive := by decide

theorem witness_BranchResult_not_taken :
    ¬ ((true = true ∧ State.reset.cond = .negative) ∨ (false = true ∧ State.reset.cond = .zero) ∨
      (true = true ∧ State.reset.cond = .positive)) := by decide

theorem witness_JumpSubroutineRegisterResult : Reg.r2 ≠ .r7 ∧ Reg.r7 = .r7 := by decide

theorem witness_ReturnGoesBack :
    (∃ t v, exec (.jsr 3) State.reset = .next t ∧ exec (.jmp .r7) t = .next v) ∧
    (∃ t v, exec (.jsrr .r7) State.reset = .next t ∧ exec (.jmp .r7) t = .next v) :=
  ⟨⟨_, _, rfl, rfl⟩, ⟨_, _, rfl, rfl⟩⟩

/-- The reads' premise, at a plain cell, at KBSR with a key and at KBSR with none: the loads LD, LDI, LDR, and STI. -/
theorem witness_reads_config : State.reset.config.wf ∧ (typed zeros [] [some 0x41]).config.wf := by decide

theorem witness_reads_plain :
    (quiet zeros []).pc + sext (0 : BitVec 9) ≠ (quiet zeros []).config.kbsrAddr := by decide

theorem witness_reads_kbsr_with_key :
    ((typed zeros [] [some 0x41]).setPc 0xFE00).pc + sext (0 : BitVec 9) =
        ((typed zeros [] [some 0x41]).setPc 0xFE00).config.kbsrAddr ∧
      ((typed zeros [] [some 0x41]).setPc 0xFE00).input.ask = (some 0x41, ⟨[], .ended⟩) := by decide

theorem witness_reads_kbsr_no_key :
    ((quiet zeros []).setPc 0xFE00).pc + sext (0 : BitVec 9) = ((quiet zeros []).setPc 0xFE00).config.kbsrAddr ∧
      ((quiet zeros []).setPc 0xFE00).input.ask = (none, ⟨[], .ended⟩) := by decide

/-- The same three for a base register: LDR of KBSR, and of the cell below it. -/
theorem witness_LoadBaseOffset :
    (quiet (regs 0 0 0xFE00 0 0 0) []).reg .r2 + sext (0 : BitVec 6) = (quiet zeros []).config.kbsrAddr ∧
      (quiet (regs 0 0 0xFE00 0 0 0) []).reg .r2 + sext (0x3F : BitVec 6) ≠ (quiet zeros []).config.kbsrAddr := by
  decide

theorem witness_StoreIndirectResult :
    ∃ a u, (typed zeros [(0x3005, 0x4000)] []).memRead ((typed zeros [(0x3005, 0x4000)] []).pc + sext (5 : BitVec 9)) =
      (a, u) ∧ a = 0x4000 := ⟨_, _, rfl, by decide⟩

theorem witness_StoreToKbsrIsNeverReadBack : (typed zeros [] [some 0x41]).config.wf ∧ (quiet zeros []).config.wf := by
  decide

theorem witness_CanonicalMemories : (⟨[(0x3000, 5), (0xFFFF, 1)]⟩ : Memory).wf ∧ (⟨[]⟩ : Memory).wf := by decide

theorem witness_StoreIsSeenByTheNextFetch :
    ∃ t, exec (.st .r1 0) State.reset = .next t ∧ State.reset.run = .running ∧ State.reset.activity = .idle ∧
      State.reset.stop.raised = false ∧ State.reset.pc ≠ State.reset.config.kbsrAddr :=
  ⟨_, rfl, by decide, by decide, by decide, by decide⟩

theorem witness_StepRunsTheDecodedInstruction :
    (State.reset.run = .running ∧ State.reset.activity = .idle ∧ State.reset.stop.raised = false ∧
      State.reset.pc ≠ State.reset.config.kbsrAddr) ∧
    ((State.reset.setStop (.after 1)).stop.raised = false) ∧ ((State.reset.setStop (.after 0)).stop.raised = true) := by
  decide

theorem witness_FetchAtKbsr_key :
    let s := (typed zeros [] [some 0]).setPc 0xFE00
    s.run = .running ∧ s.activity = .idle ∧ s.stop.raised = false ∧ s.config.wf ∧ s.pc = s.config.kbsrAddr ∧
      s.input.ask = (some 0, ⟨[], .ended⟩) := by decide

theorem witness_FetchAtKbsr_no_key :
    let s := (quiet zeros []).setPc 0xFE00
    s.run = .running ∧ s.activity = .idle ∧ s.stop.raised = false ∧ s.config.wf ∧ s.pc = s.config.kbsrAddr ∧
      s.input.ask = (none, ⟨[], .ended⟩) := by decide

theorem witness_EndedRunNeverChanges :
    (State.reset.setRun .halted).Ended ∧ (State.reset.setRun .faulted).Ended ∧ (State.reset.setRun .cancelled).Ended ∧
      Reaches (State.reset.setRun .halted) (State.reset.setRun .halted) :=
  ⟨nofun, nofun, nofun, .refl _⟩

theorem witness_RunEnds_halted :
    nextHas (step (State.here State.reset 0x3000 0xF025)) (fun t => t.run == .halted) = true ∧
      (State.here State.reset 0x3000 0xF025).run = .running := by decide

theorem witness_RunEnds_faulted :
    nextHas (step (State.here State.reset 0x3000 0xF0FF)) (fun t => t.run == .faulted) = true ∧
      nextHas (step (State.here State.reset 0x3000 0x8000)) (fun t => t.run == .faulted) = true ∧
      nextHas (step (State.here State.reset 0x3000 0xD000)) (fun t => t.run == .faulted) = true := by decide

theorem witness_RunEnds_cancelled :
    nextHas (step (State.reset.setStop (.after 0))) (fun t => t.run == .cancelled) = true ∧
      nextHas (step ((State.reset.setStop (.after 0)).setActivity .inChar)) (fun t => t.run == .cancelled) = true := by
  decide

theorem witness_InputHold_stop :
    let s := ((typed zeros [] [some 0x41]).setActivity .getc).setStop (.after 0)
    let t := (quiet zeros [] |>.setActivity .inChar).setStop (.after 0)
    s.run = .running ∧ s.activity = .getc ∧ s.stop.raised = true ∧
      t.run = .running ∧ t.activity = .inChar ∧ t.stop.raised = true := by decide

theorem witness_InputHold_character :
    let s := (typed zeros [] [some 0x41]).setActivity .getc
    let t := (typed zeros [] [some 0xFF]).setActivity .inChar
    s.run = .running ∧ s.activity = .getc ∧ s.stop.raised = false ∧ s.input.ask = (some 0x41, ⟨[], .ended⟩) ∧
      t.run = .running ∧ t.activity = .inChar ∧ t.stop.raised = false ∧ t.input.ask = (some 0xFF, ⟨[], .ended⟩) := by
  decide

theorem witness_InputHold_nothing :
    let s := (quiet zeros []).setActivity .getc
    let t := (typed zeros [] [none, some 0x41]).setActivity .inChar
    s.run = .running ∧ s.activity = .getc ∧ s.stop.raised = false ∧ s.input.ask = (none, ⟨[], .ended⟩) ∧
      t.run = .running ∧ t.activity = .inChar ∧ t.stop.raised = false ∧
      t.input.ask = (none, ⟨[some 0x41], .ended⟩) := by decide

theorem witness_EveryTrapLinksInR7 :
    Instr.getc.opcode = 15#4 ∧ Instr.halt.opcode = 15#4 ∧ (Instr.trap 0xFF).opcode = 15#4 := by decide

theorem witness_TrapVectorSelectsTheService :
    (0xF020#16).extractLsb' 12 4 = 15#4 ∧ (0xFF26#16).extractLsb' 12 4 = 15#4 := by decide

theorem witness_UnservedVectorFaults :
    (0x1F#8).toNat < 0x20 ∧ 0x25 < (0x26#8).toNat ∧ (0x00#8).toNat < 0x20 ∧ 0x25 < (0xFF#8).toNat := by decide

/-- GETC's and IN's two clauses. -/
theorem witness_Getc_In :
    (typed zeros [] [some 0x41]).input.ask = (some 0x41, ⟨[], .ended⟩) ∧
      (quiet zeros []).input.ask = (none, ⟨[], .ended⟩) := by decide

/-- The empty string, and one of two characters that wraps from 0xFFFF to 0x0000. -/
theorem witness_PlainStringsAreWrittenWhole :
    let s := quiet (regs 0xFFFF 0 0 0 0 0) [(0xFFFF, 0x41), (0, 0x0100)]
    let e := quiet (regs 0x4000 0 0 0 0 0) []
    (s.activity = .idle ∧ (∀ j, j < 2 → s.cell (s.reg .r0 + BitVec.ofNat 16 j) ≠ 0) ∧
      (∀ j, j ≤ 2 → s.reg .r0 + BitVec.ofNat 16 j ≠ s.config.kbsrAddr) ∧
      s.cell (s.reg .r0 + BitVec.ofNat 16 2) = 0) ∧
    (e.activity = .idle ∧ (∀ j, j < 0 → e.cell (e.reg .r0 + BitVec.ofNat 16 j) ≠ 0) ∧
      (∀ j, j ≤ 0 → e.reg .r0 + BitVec.ofNat 16 j ≠ e.config.kbsrAddr) ∧
      e.cell (e.reg .r0 + BitVec.ofNat 16 0) = 0) := by decide

/-- A string that runs over KBSR while a key is available: the cells at 0xFDFF and 0xFE00, then a zero one. -/
theorem witness_StringRoutinesReadThroughMemRead :
    ∃ u bs, StringRun .puts 2 0xFDFF (typed (regs 0xFDFF 0 0 0 0 0) [(0xFDFF, 0x41)] [some 0x42]) bs u ∧
      bs = [0x41, 0x00] ∧ u.cell 0xFE02 = 0x42 :=
  ⟨_, _, .more (by decide) (.more (by decide) (.stop (by decide))), by decide, by decide⟩

/-- PUTSP's, with no cell before the zero one. -/
theorem witness_StringRoutines_empty : ∃ u, StringRun .putsp 0 0x4000 State.reset [] u := ⟨_, .stop (by decide)⟩

/-- R112: a PUTS that ends is one step, also after more than a round of the memory: only KBSR, where it begins, and KBDR
are ever zero, the first poll finds a character, the second none. Its 65537 reads are within the step's. -/
theorem test_string_reads_of_two_polls :
    (typed zeros [] [some 0x41, none]).stringReads = 65536 * 3 ∧
      (State.reset.setInput ⟨[], .repeating (some 0x41) [some 0x42]⟩).stringReads = 65536 := by decide

/-- R221: an input that never ends and is never constant, A and B in turn. -/
theorem test_input_ABAB :
    InputChannel.answer ⟨[], .repeating (some 0x41) [some 0x42]⟩ 6 = some 0x41 ∧
      InputChannel.answer ⟨[], .repeating (some 0x41) [some 0x42]⟩ 7 = some 0x42 := by decide

/-- A run of consecutive cells that all hold 1. -/
theorem lookup_ones (n : Nat) : ∀ base a, base ≤ a → a < base + n →
    Memory.lookup ((List.range' base n).map (fun k => (k, (1 : Word)))) a = 1 := by
  induction n with
  | zero => intro base a h1 h2; omega
  | succ n ih =>
    intro base a h1 h2
    rw [List.range'_succ, List.map_cons, Memory.lookup]
    split
    · rfl
    · exact ih (base + 1) a (by omega) (by omega)

/-- A memory of ones, with a few cells written over it. -/
theorem exists_memory (a w : Word) (hw : w ≠ 0) : ∃ m : Memory, (∀ b, m.get b ≠ 0) ∧ m.get a = w := by
  refine ⟨Memory.put ⟨(List.range' 0 65536).map (fun k => (k, (1 : Word)))⟩ a w, fun b => ?_, by
    rw [Memory.get_put, if_pos rfl]⟩
  rw [Memory.get_put]
  split
  · exact hw
  · rw [Memory.get, lookup_ones 65536 0 b.toNat (by omega) (by omega)]; decide

/-- A running state over the memory `m`, whose keyboard never rests. -/
def endless (m : Memory) (activity : Activity) : State where
  regs := zeros
  pc := 0x3001
  cond := .zero
  run := .running
  fault := ⟨.none, 0, 0⟩
  mem := m
  activity := activity
  input := ⟨[some 1], .repeating (some 0xFF) []⟩
  output := []
  stop := .never
  config := Config.default

theorem endless_noZeroRead (m : Memory) (activity : Activity) (h : ∀ a, m.get a ≠ 0) :
    NoZeroRead (endless m activity) where
  cells a _ := h a
  polls k := by
    cases k with
    | zero => exact ⟨1, rfl, by decide⟩
    | succ k =>
      refine ⟨0xFF, ?_, by decide⟩
      show InputChannel.answer ⟨[], .repeating (some 0xFF) []⟩ k = some 0xFF
      induction k with
      | zero => rfl
      | succ k ih => exact ih

/-- Inside PUTS, and inside PUTSP. -/
theorem witness_PutsWithNoZeroCellNeverEnds (mode : StringMode) :
    ∃ s, s.run = .running ∧ s.activity = mode.activity 0 ∧ s.config.wf ∧ NoZeroRead s ∧ Reaches s s := by
  obtain ⟨m, h, -⟩ := exists_memory 0 1 (by decide)
  exact ⟨endless m (mode.activity 0), rfl, rfl, show Config.default.wf by decide, endless_noZeroRead m _ h, .refl _⟩

/-- The entry: the TRAP of either routine at the pc. -/
theorem witness_PutsWithNoZeroCell_entry (mode : StringMode) :
    ∃ s, s.run = .running ∧ s.activity = .idle ∧ s.stop.raised = false ∧ s.config.wf ∧ NoZeroRead s ∧
      s.pc ≠ s.config.kbsrAddr ∧ decode (s.cell s.pc) = mode.instr := by
  obtain ⟨m, h, e⟩ := exists_memory 0x3001 (encode mode.instr) (by cases mode <;> decide)
  refine ⟨endless m .idle, rfl, rfl, rfl, show Config.default.wf by decide, endless_noZeroRead m _ h,
    show (0x3001 : Word) ≠ Config.default.kbsrAddr by decide, ?_⟩
  show decode (m.get 0x3001) = mode.instr
  rw [e]; cases mode <;> decide

/-- Over memory in which no read gives zero there is no run that ends. -/
theorem witness_StringRoutines_unending (mode : StringMode) :
    ∃ s, s.activity = .idle ∧ ∀ u n bs, ¬ StringRun mode n (s.reg .r0) s bs u := by
  obtain ⟨m, h, -⟩ := exists_memory 0 1 (by decide)
  refine ⟨endless m .idle, rfl, fun u n bs hr => ?_⟩
  have hn : (endless m .idle).input.firstEnding = none := rfl
  have := StringRun.lt_of_none hr 65536 hn (fun i _ _ => .inr (h _))
  omega

theorem witness_UnimplementedOpcodes :
    State.reset.config.unimplPolicy = .fault ∧ (State.noop State.reset).config.unimplPolicy = .nop ∧
      (Instr.rti = .rti ∧ (8 : Byte) = 8#8) ∧ (Instr.res = .res ∧ (13 : Byte) = 13#8) := by decide

/-- A step that fetches another word, and one of an ended core whose cell at the pc holds opcode 8. -/
theorem witness_PolicyMattersToRtiAndResOnly :
    (nextHas (step State.reset) (fun _ => true) = true ∧
      decode ((State.reset.setStop State.reset.stop.tick).memRead State.reset.pc).1 ≠ .rti ∧
      decode ((State.reset.setStop State.reset.stop.tick).memRead State.reset.pc).1 ≠ .res) ∧
    (nextHas (step ((State.here State.reset 0x3000 0x8000).setRun .halted)) (fun _ => true) = true ∧
      ((State.here State.reset 0x3000 0x8000).setRun .halted).run ≠ .running) := by decide

theorem witness_OnlyTrapRtiResCanFault :
    nextHas (exec (.trap 0x26) State.reset) (fun t => t.run == .faulted) = true ∧
      nextHas (exec .rti State.reset) (fun t => t.run == .faulted) = true ∧
      nextHas (exec .res State.reset) (fun t => t.run == .faulted) = true ∧ State.reset.run ≠ .faulted := by decide

theorem witness_LaunchStatesMeetTheInvariant : Config.default.wf ∧ (⟨0, 0xFFFF, .nop, [], []⟩ : Config).wf := by decide

/-- The reset state meets the invariant and has a next state. -/
theorem witness_EveryStepKeepsTheInvariant : State.reset.Inv ∧ ∃ t, step State.reset = .next t :=
  ⟨⟨by decide, by decide, by decide, trivial, by decide, by decide⟩, ⟨_, rfl⟩⟩

theorem witness_OutputOnlyGrowsAndParametersStay :
    ∃ t, Reaches (State.here State.reset 0x3000 0xF025) t ∧ t.output = Config.defaultNotice :=
  ⟨nextOf (step (State.here State.reset 0x3000 0xF025)) State.reset, .step (.refl _) rfl, by decide⟩

/-- A store, a poll that changes KBSR and KBDR, and a form that neither stores nor reads. -/
theorem witness_MemoryChangesByStoresAndPollsOnly :
    nextHas (exec (.st .r0 0) (quiet (regs 7 0 0 0 0 0) []))
      (fun t => t.cell 0x3000 != (quiet (regs 7 0 0 0 0 0) []).cell 0x3000) = true ∧
    nextHas (exec (.ldr .r1 .r0 0) (typed (regs 0xFE00 0 0 0 0 0) [] [some 0x41]))
      (fun t => t.cell 0xFE00 != 0 && t.cell 0xFE02 != 0) = true ∧
    (storeAddress State.reset .getc = none ∧ readsMemory .getc = false) := by decide

theorem witness_InstructionsWriteOnlyTheListedRegisters :
    (∃ t, exec .getc State.reset = .next t) ∧ writesPc .getc = false := ⟨⟨_, rfl⟩, rfl⟩

end Sys2Proof.Tests
end

section
/-! Sign and zero extension as numbers (R8 of spec/00_scope.md): the value of `sext` unsigned and signed, the value of
`zext16`, and the statement about them. -/

namespace Sys2Proof.Machine

/-- The unsigned value of a sign-extended field (R8): the top bit of the field adds the bits 15 down to n. -/
theorem sext_toNat {n : Nat} (hn : n ≤ 16) (f : BitVec n) :
    (sext f).toNat = if f.getLsbD (n - 1) then f.toNat + (65536 - 2 ^ n) else f.toNat := by
  have value : (sext f).toNat = f.toNat + if f.msb then 65536 - 2 ^ n else 0 := by
    rw [sext, BitVec.toNat_signExtend, BitVec.toNat_setWidth_of_le hn]
  rw [value, BitVec.msb_eq_getLsbD_last]
  split <;> rfl

/-- Sign extension of a field no wider than a word keeps its signed value. -/
@[simp] theorem sext_toInt {n : Nat} (hn : n ≤ 16) (f : BitVec n) : (sext f).toInt = f.toInt :=
  BitVec.toInt_signExtend_of_le hn

/-- A word is its own sign extension (`sext_16`, R8). -/
@[simp] theorem sext_word (v : Word) : sext v = v := BitVec.signExtend_eq v

/-- The signed range of a sign-extended field is that of its width. -/
theorem sext_toInt_range {n : Nat} (hn : n ≤ 16) (f : BitVec n) :
    -2 ^ (n - 1) ≤ (sext f).toInt ∧ (sext f).toInt ≤ 2 ^ (n - 1) - 1 := by
  rw [sext_toInt hn]
  exact ⟨f.le_toInt, BitVec.toInt_le⟩

/-- Zero extension keeps the value of a byte (`zext_16`, R8). -/
@[simp] theorem zext16_toNat (b : Byte) : (zext16 b).toNat = b.toNat :=
  BitVec.toNat_setWidth_of_le (by decide)

/-- Settles O6: the value and the signed range hold for every width up to 16; the four ranges are the instances 5, 6, 9
and 11. -/
theorem signExtensionFollowsTheTopBit : Obligations.SignExtensionFollowsTheTopBit :=
  ⟨fun _ f _ hn => sext_toNat hn f, sext_word,
    sext_toInt_range (n := 5) (by decide), sext_toInt_range (n := 6) (by decide),
    sext_toInt_range (n := 9) (by decide), sext_toInt_range (n := 11) (by decide), zext16_toNat⟩

end Sys2Proof.Machine
end

section
/-! COND and the run start (R26 to R28, R40 to R42 of spec/10_state.md): the flag rule, the cells no loader write names,
and which instructions write COND or look at it. -/

namespace Sys2Proof.Machine

/-! ### The flag rule (R27) -/

/-- R27's rule meets R27's table. -/
theorem flagsFor_ofWord (v : Word) : FlagsFor v (Cond.ofWord v) := by
  rcases Cond.ofWord_cases v with ⟨_, e⟩ | ⟨_, e⟩ | ⟨_, _, e⟩
  · exact ⟨fun _ => e, fun _ => by omega, fun _ _ => by omega⟩
  · exact ⟨fun _ => by omega, fun _ => e, fun _ _ => by omega⟩
  · exact ⟨fun _ => by omega, fun _ => by omega, fun _ _ => e⟩

/-- Settles O16: R27's rule meets its table, and setcc is a write of COND alone. -/
theorem flagUpdateRule : Obligations.FlagUpdateRule := fun _ v => ⟨flagsFor_ofWord v, rfl⟩

/-! ### The run start (R40 to R42) -/

/-- The load port leaves alone every cell it is not asked to write (R211). -/
theorem Memory.get_load_of_forall_ne (m : Memory) {ws : List (Word × Word)} {a : Word} (h : ∀ w ∈ ws, w.1 ≠ a) :
    (m.load ws).get a = m.get a := by
  induction ws generalizing m with
  | nil => rfl
  | cons w ws ih =>
    obtain ⟨hw, hws⟩ := List.forall_mem_cons.mp h
    calc (m.load (w :: ws)).get a = (m.put w.1 w.2).get a := ih _ hws
      _ = m.get a := by rw [Memory.get_put, if_neg hw.symm]

/-- Settles O7: the memory before the loader is all zero (R40), and the load port changes no other cell. -/
theorem runStartPcCondMemory : Obligations.RunStartPcCondMemory :=
  fun _ _ _ _ _ => ⟨rfl, rfl, fun _ h => Memory.get_load_of_forall_ne ⟨[]⟩ h⟩

/-! ### No operation but BR's test looks at COND (R28)

Each operation is run on a state with another COND: it does the same and leaves that COND, so a write of COND before it
is a write of COND after it. -/

section
variable (s : State) (c : Cond)

theorem State.polled_setCond : (s.setCond c).polled = s.polled.setCond c := by
  unfold State.polled
  rw [State.setCond_input]
  split <;> rfl

theorem State.touch_setCond (a : Word) : (s.setCond c).touch a = (s.touch a).setCond c := by
  unfold State.touch
  rw [State.setCond_config, State.polled_setCond]
  split <;> rfl

theorem State.memRead_setCond (a : Word) :
    (s.setCond c).memRead a = ((s.memRead a).1, (s.memRead a).2.setCond c) := by
  rw [State.memRead, State.touch_setCond]
  rfl

theorem State.pointer_setCond (off : Word) :
    (s.setCond c).pointer off = ((s.pointer off).1, (s.pointer off).2.setCond c) :=
  s.memRead_setCond c (s.pc + off)

/-- A load writes COND last, so an earlier write of COND is lost (R140). -/
theorem State.loadInto_setCond (d : Reg) (ea : Word) : (s.setCond c).loadInto d ea = s.loadInto d ea := by
  rw [State.loadInto, State.memRead_setCond]
  rfl

theorem State.tryGetc_setCond : (s.setCond c).tryGetc = s.tryGetc.setCond c := by
  unfold State.tryGetc
  rw [State.setCond_input]
  split <;> rfl

theorem State.tryIn_setCond : (s.setCond c).tryIn = s.tryIn.setCond c := by
  unfold State.tryIn
  rw [State.setCond_input]
  split <;> rfl

theorem State.serviceIn_setCond : (s.setCond c).serviceIn = s.serviceIn.setCond c :=
  (s.emit s.config.inPrompt).tryIn_setCond c

theorem stringLoop_setCond (mode : StringMode) (n : Nat) (a : Word) :
    stringLoop mode n a (s.setCond c) = (stringLoop mode n a s).setCond c := by
  induction n generalizing a s with
  | zero => rfl
  | succ n ih =>
    have hv : ((s.setCond c).memRead a).1 = (s.memRead a).1 := by rw [State.memRead_setCond]
    by_cases hz : (s.memRead a).1 = 0
    · rw [stringLoop_stop _ mode n a (hv.trans hz), stringLoop_stop s mode n a hz, State.memRead_setCond]
      rfl
    · rw [stringLoop_more _ mode n a (hv ▸ hz), stringLoop_more s mode n a hz, State.memRead_setCond]
      exact ih ((s.memRead a).2.emit (mode.bytes (s.memRead a).1)) (a + 1)

theorem State.serviceString_setCond (mode : StringMode) :
    (s.setCond c).serviceString mode = (s.serviceString mode).setCond c :=
  stringLoop_setCond s c mode s.stringReads (s.reg .r0)

theorem State.trapDispatch_setCond (v : Byte) : (s.setCond c).trapDispatch v = (s.trapDispatch v).setCond c := by
  simp only [State.trapDispatch, State.tryGetc_setCond, State.serviceString_setCond, State.serviceIn_setCond]
  split_ifs <;> rfl

theorem State.unimplemented_setCond (op : Byte) : (s.setCond c).unimplemented op = (s.unimplemented op).setCond c := by
  unfold State.unimplemented
  rw [State.setCond_config]
  split <;> rfl

end

/-! ### What an instruction does with COND (R28) -/

/-- Each of the seven ends in a flag-setting write of its destination register (R28). -/
theorem exec_eq_writeDest {i : Instr} {d : Reg} (h : flagDest i = some d) (s : State) :
    ∃ (t : State) (v : Word), exec i s = .next (t.writeDest d v) := by
  cases i <;> cases h <;> exact ⟨_, _, rfl⟩

/-- That write overwrites COND, and nothing before it looks at COND. -/
theorem exec_setCond_of_flagDest {i : Instr} {d : Reg} (h : flagDest i = some d) (s : State) (c : Cond) :
    exec i (s.setCond c) = exec i s := by
  cases i <;> cases h
  case ld off => exact congrArg Host.Outcome.next (s.loadInto_setCond c d (s.pc + off))
  case ldr base off => exact congrArg Host.Outcome.next (s.loadInto_setCond c d (s.reg base + off))
  case ldi off =>
    show execLdi d off (s.setCond c) = execLdi d off s
    rw [execLdi, State.pointer_setCond, State.loadInto_setCond]
    rfl
  case addReg | addImm | andReg | andImm | notReg | lea => rfl

/-- An instruction that is neither one of the seven nor BR does not look at COND and leaves it as it is. -/
theorem exec_setCond_of_no_flagDest {i : Instr} (h : flagDest i = none) (hbr : ∀ n z p off, i ≠ .br n z p off)
    (s : State) : ∃ t, exec i s = .next t ∧ ∀ c, exec i (s.setCond c) = .next (t.setCond c) := by
  cases i <;> cases h
  case br n z p off => exact absurd rfl (hbr n z p off)
  case sti sr off =>
    refine ⟨_, rfl, fun c => ?_⟩
    show execSti sr off (s.setCond c) = _
    rw [execSti, State.pointer_setCond]
    rfl
  case trap v => exact ⟨_, rfl, fun c => congrArg Host.Outcome.next (s.link.trapDispatch_setCond c v)⟩
  case getc => exact ⟨_, rfl, fun c => congrArg Host.Outcome.next (s.link.tryGetc_setCond c)⟩
  case puts => exact ⟨_, rfl, fun c => congrArg Host.Outcome.next (s.link.serviceString_setCond c .puts)⟩
  case inChar => exact ⟨_, rfl, fun c => congrArg Host.Outcome.next (s.link.serviceIn_setCond c)⟩
  case putsp => exact ⟨_, rfl, fun c => congrArg Host.Outcome.next (s.link.serviceString_setCond c .putsp)⟩
  case rti => exact ⟨_, rfl, fun c => congrArg Host.Outcome.next (s.unimplemented_setCond c 8)⟩
  case res => exact ⟨_, rfl, fun c => congrArg Host.Outcome.next (s.unimplemented_setCond c 13)⟩
  case jmp | jsr | jsrr | st | str | outChar | halt => exact ⟨_, rfl, fun _ => rfl⟩

/-- BR reads COND but does not write it (R130). -/
theorem execBr_cond {n z p : Bool} {off : Word} {s t : State} (h : exec (.br n z p off) s = .next t) :
    t.cond = s.cond := by
  obtain rfl : (if branchTaken n z p s.cond then s.setPc (s.pcRel off) else s) = t := Host.Outcome.next.inj h
  split <;> rfl

/-- COND after one of the seven is the flag of the value in its destination register (R28). -/
theorem exec_flagsFor {i : Instr} {d : Reg} {s t : State} (h : flagDest i = some d) (ht : exec i s = .next t) :
    FlagsFor (t.reg d) t.cond := by
  obtain ⟨u, v, hu⟩ := exec_eq_writeDest h s
  obtain rfl : u.writeDest d v = t := Host.Outcome.next.inj (hu.symm.trans ht)
  simpa using flagsFor_ofWord v

/-- Every other instruction leaves COND alone (R28). BR aside, it would leave alone any COND that stood there, so also
the one that does. -/
theorem exec_cond_of_no_flagDest {i : Instr} {s t : State} (h : flagDest i = none) (ht : exec i s = .next t) :
    t.cond = s.cond := by
  by_cases hbr : ∀ n z p off, i ≠ .br n z p off
  · obtain ⟨u, -, hc⟩ := exec_setCond_of_no_flagDest h hbr s
    obtain rfl : u.setCond s.cond = t := Host.Outcome.next.inj ((hc s.cond).symm.trans ht)
    rfl
  · push Not at hbr
    obtain ⟨n, z, p, off, rfl⟩ := hbr
    exact execBr_cond ht

/-- With another COND before it an instruction other than BR ends as it did, with the COND it wrote or the one it found
(R28). -/
theorem exec_setCond {i : Instr} {s t : State} (hbr : ∀ n z p off, i ≠ .br n z p off) (ht : exec i s = .next t)
    (c : Cond) : exec i (s.setCond c) = .next (t.setCond (if (flagDest i).isSome then t.cond else c)) := by
  cases h : flagDest i with
  | some d => exact (exec_setCond_of_flagDest h s c).trans ht
  | none =>
    obtain ⟨u, hu, hc⟩ := exec_setCond_of_no_flagDest h hbr s
    obtain rfl : u = t := Host.Outcome.next.inj (hu.symm.trans ht)
    exact hc c

/-- Settles O17: each of the seven ends in a flag-setting write, and a write of COND before any other instruction but
BR can be moved behind it. -/
theorem condWrittenBySevenOpcodesReadByOne : Obligations.CondWrittenBySevenOpcodesReadByOne := by
  refine ⟨fun i s t ht => ?_, fun i s t c hbr ht => ⟨_, exec_setCond hbr ht c, rfl⟩, fun _ _ _ _ _ => rfl⟩
  cases h : flagDest i with
  | some d => exact exec_flagsFor h ht
  | none => exact exec_cond_of_no_flagDest h ht

end Sys2Proof.Machine
end

section
/-! MemWrite (R54 of spec/20_memory.md): the cells it leaves alone, and the statement about it. -/

namespace Sys2Proof.Machine

/-- A write of one cell leaves every other cell as it was. -/
theorem State.setCell_keepsMemoryBut (s : State) (a v : Word) : KeepsMemoryBut a s (s.setCell a v) :=
  fun b hb => by rw [State.setCell_cell, if_neg hb]

/-- Settles O32: MemWrite is a write of one cell at every address, so the read-after-write law of the memory gives the
cell, and no field but the memory is touched. -/
theorem memoryWriteIsAPlainStore : Obligations.MemoryWriteIsAPlainStore := by
  intro s a v
  rw [State.memWrite_eq]
  have stored : (s.setCell a v).cell a = v := by rw [State.setCell_cell, if_pos rfl]
  exact ⟨stored, s.setCell_keepsMemoryBut a v, rfl⟩

end Sys2Proof.Machine
end

section
/-! Ended runs (R110 of spec/40_instruction_cycle.md): the step of a core that is not RUNNING, the states reached from
it, and the statement about them. -/

namespace Sys2Proof.Machine

/-- In each of the three terminal values of `run` a step does nothing (R110). -/
theorem step_of_ended {s : State} (h : s.Ended) : step s = .next s := by
  unfold step
  cases hr : s.run with
  | running => exact absurd hr h
  | halted | faulted | cancelled => rfl

/-- A state that steps to itself reaches no other. -/
theorem Reaches.eq_of_step_self {s t : State} (hr : Reaches s t) (hs : Machine.step s = .next s) : t = s := by
  induction hr with
  | refl => rfl
  | step _ hu ih =>
    rw [ih, hs] at hu
    exact (Host.Outcome.next.inj hu).symm

/-- Settles O38: the step of an ended core is a fixed point, and a run from a fixed point stays there. -/
theorem endedRunNeverChanges : Obligations.EndedRunNeverChanges :=
  fun _ h => ⟨step_of_ended h, fun _ hr => hr.eq_of_step_self (step_of_ended h)⟩

end Sys2Proof.Machine
end

section
/-! ADD, AND and NOT (R121 to R125 of spec/41_alu.md): the effect of a write of a destination register, and the five
statements, each of which names the value written. -/

namespace Sys2Proof.Machine

/-- The write that ends every flag-setting instruction touches the destination register and COND alone (R28, R120). -/
theorem State.writeDest_writesOnlyDest (s : State) (d : Reg) (v : Word) :
    WritesOnlyDest d v s (s.writeDest d v) := by
  have written : (s.writeDest d v).reg d = v := by simp
  have others : KeepsRegs [d] s (s.writeDest d v) := fun r hr => by
    rw [List.mem_singleton] at hr
    simp [hr]
  exact ⟨written, flagsFor_ofWord v, others, rfl, fun _ => rfl, ⟨rfl, rfl⟩, rfl, rfl, rfl, rfl, rfl⟩

/-- Settles O10: ADD is a write of the sum of two registers to DR. -/
theorem addRegisterFormResult : Obligations.AddRegisterFormResult := fun d a b s =>
  ⟨s.writeDest d (s.reg a + s.reg b), rfl, s.writeDest_writesOnlyDest d _⟩

/-- Settles O11: ADD is a write of the sum of a register and the extended immediate to DR. -/
theorem addImmediateFormResult : Obligations.AddImmediateFormResult := fun d a imm5 s =>
  ⟨s.writeDest d (s.reg a + sext imm5), rfl, s.writeDest_writesOnlyDest d _⟩

/-- Settles O12: AND is a write of the bitwise AND of two registers to DR. -/
theorem andRegisterFormResult : Obligations.AndRegisterFormResult := fun d a b s =>
  ⟨s.writeDest d (s.reg a &&& s.reg b), rfl, s.writeDest_writesOnlyDest d _⟩

/-- Settles O13: AND is a write of the bitwise AND of a register and the extended immediate to DR. -/
theorem andImmediateFormResult : Obligations.AndImmediateFormResult := fun d a imm5 s =>
  ⟨s.writeDest d (s.reg a &&& sext imm5), rfl, s.writeDest_writesOnlyDest d _⟩

/-- Settles O14: NOT is a write of the complement to DR, and complement is subtraction from the word of all ones. -/
theorem notResult : Obligations.NotResult := by
  intro d a s
  have complement : 0xFFFF#16 - s.reg a = ~~~ s.reg a := BitVec.allOnes_sub_eq_not (s.reg a)
  rw [complement]
  exact ⟨s.writeDest d (~~~ s.reg a), rfl, s.writeDest_writesOnlyDest d _⟩

end Sys2Proof.Machine
end

section
/-! BR, JMP and JSR (R130 to R132 of spec/42_control.md): what a write of the pc and the link leave alone, BR's test as
the spec words it, and the three statements. -/

namespace Sys2Proof.Machine

/-- A state differs from itself in no more than the pc: a branch that is not taken (R130). -/
theorem ChangesOnlyPc.refl (s : State) : ChangesOnlyPc s s :=
  ⟨fun _ _ => rfl, rfl, fun _ => rfl, ⟨rfl, rfl⟩, rfl, rfl, rfl, rfl, rfl⟩

/-- A write of the pc touches nothing else. -/
theorem State.setPc_changesOnlyPc (s : State) (v : Word) : ChangesOnlyPc s (s.setPc v) :=
  ⟨fun _ _ => rfl, rfl, fun _ => rfl, ⟨rfl, rfl⟩, rfl, rfl, rfl, rfl, rfl⟩

/-- The link is the incremented pc, in R7 (R132). -/
theorem State.link_reg_r7 (s : State) : s.link.reg .r7 = s.pc := by simp

/-- The link writes no register but R7. -/
theorem State.link_keepsRegs (s : State) : KeepsRegs [.r7] s s.link := fun r hr => by
  rw [List.mem_singleton] at hr
  simp [hr]

/-- BR's test asks for the flag that COND is (R130). -/
theorem branchTaken_iff (n z p : Bool) (c : Cond) :
    branchTaken n z p c = true ↔
      (n = true ∧ c = .negative) ∨ (z = true ∧ c = .zero) ∨ (p = true ∧ c = .positive) := by
  cases c <;> simp [branchTaken]

/-- BR goes to the incremented pc plus the offset where its test holds. -/
theorem exec_br_of_taken {n z p : Bool} {s : State} (h : branchTaken n z p s.cond = true) (off : Word) :
    exec (.br n z p off) s = .next (s.setPc (s.pc + off)) :=
  congrArg Host.Outcome.next (if_pos h)

/-- BR does nothing where its test fails. -/
theorem exec_br_of_not_taken {n z p : Bool} {s : State} (h : ¬ branchTaken n z p s.cond = true) (off : Word) :
    exec (.br n z p off) s = .next s :=
  congrArg Host.Outcome.next (if_neg h)

/-- Settles O19: a taken branch is a write of the pc, one that is not taken is no change at all. -/
theorem branchResult : Obligations.BranchResult := by
  intro n z p pcOffset9 s
  rw [← branchTaken_iff]
  by_cases h : branchTaken n z p s.cond = true
  · exact ⟨s.setPc (s.pc + sext pcOffset9), exec_br_of_taken h _, s.setPc_changesOnlyPc _,
      fun _ => rfl, fun not_taken => absurd h not_taken⟩
  · exact ⟨s, exec_br_of_not_taken h _, ChangesOnlyPc.refl s, fun taken => absurd taken h, fun _ => rfl⟩

/-- Settles O20: JMP is a write of the base register's value to the pc. -/
theorem jumpResult : Obligations.JumpResult := fun base s =>
  ⟨s.setPc (s.reg base), rfl, rfl, s.setPc_changesOnlyPc _⟩

/-- Settles O21: JSR is the link and then a write of the pc, whose value is computed from the pc that was linked. -/
theorem jumpSubroutineResult : Obligations.JumpSubroutineResult := fun pcOffset11 s =>
  ⟨s.link.setPc (s.pc + sext pcOffset11), rfl, s.link_reg_r7, rfl, s.link_keepsRegs, rfl, fun _ => rfl,
    ⟨rfl, rfl⟩, rfl, rfl, rfl, rfl, rfl⟩

end Sys2Proof.Machine
end

section
/-! LEA, ST and STR (R144, R145, R147 of spec/43_load_store.md): the effect of a MemWrite on the whole state, and the
three statements, each of which names the address. -/

namespace Sys2Proof.Machine

/-- MemWrite stores the value at the address and touches nothing else (R54). -/
theorem State.memWrite_storesOnly (s : State) (a v : Word) : StoresOnly a v s (s.memWrite a v) := by
  obtain ⟨stored, others, -⟩ := memoryWriteIsAPlainStore s a v
  exact ⟨stored, others, fun _ _ => rfl, rfl, rfl, ⟨rfl, rfl⟩, rfl, rfl, rfl, rfl, rfl⟩

/-- Settles O27: LEA is a write of the address itself to DR. -/
theorem loadEffectiveAddressResult : Obligations.LoadEffectiveAddressResult := fun d pcOffset9 s =>
  ⟨s.writeDest d (s.pc + sext pcOffset9), rfl, s.writeDest_writesOnlyDest d _⟩

/-- Settles O28: ST is a MemWrite of SR at the incremented pc plus the offset. -/
theorem storeResult : Obligations.StoreResult := fun r pcOffset9 s =>
  ⟨s.memWrite (s.pc + sext pcOffset9) (s.reg r), rfl, s.memWrite_storesOnly _ _⟩

/-- Settles O30: STR is a MemWrite of SR at BaseR plus the offset; both registers are read from the state before it, so
they may be the same. -/
theorem storeBaseOffsetResult : Obligations.StoreBaseOffsetResult := fun r base offset6 s =>
  ⟨s.memWrite (s.reg base + sext offset6) (s.reg r), rfl, s.memWrite_storesOnly _ _⟩

end Sys2Proof.Machine
end

section
/-! Decoding and encoding (R80 to R86 of spec/30_encoding.md): an equation of the decoder per opcode, the fields of an
encoded word, the fields that flipped bits leave alone, and the statements about them. -/

namespace Sys2Proof.Machine

/-! ### The decoder, opcode by opcode (R81, R82) -/

section
variable {w : Word}

theorem decode_br (h : opcodeField w = 0) : decode w = .br w[11] w[10] w[9] (fieldOff9 w) := by simp [decode, h]

theorem decode_add (h : opcodeField w = 1) : decode w =
    if w[5] then .addImm (fieldDR w) (fieldBase w) (fieldImm5 w)
    else .addReg (fieldDR w) (fieldBase w) (fieldSR2 w) := by simp [decode, h]

theorem decode_ld (h : opcodeField w = 2) : decode w = .ld (fieldDR w) (fieldOff9 w) := by simp [decode, h]

theorem decode_st (h : opcodeField w = 3) : decode w = .st (fieldDR w) (fieldOff9 w) := by simp [decode, h]

theorem decode_jsr (h : opcodeField w = 4) : decode w =
    if w[11] then .jsr (fieldOff11 w) else .jsrr (fieldBase w) := by simp [decode, h]

theorem decode_and (h : opcodeField w = 5) : decode w =
    if w[5] then .andImm (fieldDR w) (fieldBase w) (fieldImm5 w)
    else .andReg (fieldDR w) (fieldBase w) (fieldSR2 w) := by simp [decode, h]

theorem decode_ldr (h : opcodeField w = 6) : decode w = .ldr (fieldDR w) (fieldBase w) (fieldOff6 w) := by
  simp [decode, h]

theorem decode_str (h : opcodeField w = 7) : decode w = .str (fieldDR w) (fieldBase w) (fieldOff6 w) := by
  simp [decode, h]

theorem decode_rti (h : opcodeField w = 8) : decode w = .rti := by simp [decode, h]

theorem decode_not (h : opcodeField w = 9) : decode w = .notReg (fieldDR w) (fieldBase w) := by simp [decode, h]

theorem decode_ldi (h : opcodeField w = 10) : decode w = .ldi (fieldDR w) (fieldOff9 w) := by simp [decode, h]

theorem decode_sti (h : opcodeField w = 11) : decode w = .sti (fieldDR w) (fieldOff9 w) := by simp [decode, h]

theorem decode_jmp (h : opcodeField w = 12) : decode w = .jmp (fieldBase w) := by simp [decode, h]

theorem decode_res (h : opcodeField w = 13) : decode w = .res := by simp [decode, h]

theorem decode_lea (h : opcodeField w = 14) : decode w = .lea (fieldDR w) (fieldOff9 w) := by simp [decode, h]

theorem decode_trap (h : opcodeField w = 15) : decode w = decodeTrap (fieldVect w) := by simp [decode, h]

end

/-- The sixteen opcodes. -/
theorem opcode_cases (b : BitVec 4) : b = 0 ∨ b = 1 ∨ b = 2 ∨ b = 3 ∨ b = 4 ∨ b = 5 ∨ b = 6 ∨ b = 7 ∨ b = 8 ∨
    b = 9 ∨ b = 10 ∨ b = 11 ∨ b = 12 ∨ b = 13 ∨ b = 14 ∨ b = 15 := by
  revert b; decide

/-! ### Served vectors (R160) -/

theorem servedVector_eq_false_iff (v : Byte) : servedVector v = false ↔ v.toNat < 0x20 ∨ 0x25 < v.toNat := by
  revert v; decide

theorem decodeTrap_of_unserved {v : Byte} (h : servedVector v = false) : decodeTrap v = .trap v := by
  revert v; decide

/-! ### The fields of an encoded word (R83 to R85) -/

section
variable (i : Instr)

theorem opcodeField_encode : opcodeField (encode i) = i.opcode := Laws.OpcodeField.of_any i

@[simp] theorem fieldDR_encode : fieldDR (encode i) = Reg.ofBits (i.operandBits.extractLsb' 9 3) :=
  congrArg Reg.ofBits (encode_field i 9 3 (by decide))

@[simp] theorem fieldBase_encode : fieldBase (encode i) = Reg.ofBits (i.operandBits.extractLsb' 6 3) :=
  congrArg Reg.ofBits (encode_field i 6 3 (by decide))

@[simp] theorem fieldSR2_encode : fieldSR2 (encode i) = Reg.ofBits (i.operandBits.extractLsb' 0 3) :=
  congrArg Reg.ofBits (encode_field i 0 3 (by decide))

@[simp] theorem fieldImm5_encode : fieldImm5 (encode i) = sext (i.operandBits.extractLsb' 0 5) :=
  congrArg sext (encode_field i 0 5 (by decide))

@[simp] theorem fieldOff6_encode : fieldOff6 (encode i) = sext (i.operandBits.extractLsb' 0 6) :=
  congrArg sext (encode_field i 0 6 (by decide))

@[simp] theorem fieldOff9_encode : fieldOff9 (encode i) = sext (i.operandBits.extractLsb' 0 9) :=
  congrArg sext (encode_field i 0 9 (by decide))

@[simp] theorem fieldOff11_encode : fieldOff11 (encode i) = sext (i.operandBits.extractLsb' 0 11) :=
  congrArg sext (encode_field i 0 11 (by decide))

@[simp] theorem fieldVect_encode : fieldVect (encode i) = i.operandBits.extractLsb' 0 8 :=
  encode_field i 0 8 (by decide)

end

/-- Settles O1: the opcode of the encoded word chooses the constructor, each operand is the field of its format, and a
well-formed immediate or offset is the extension of its own low bits. -/
theorem decodeOfEncodeIsIdentity : Obligations.DecodeOfEncodeIsIdentity := by
  intro i hi
  have hop := opcodeField_encode i
  cases i with
  | addReg d a b => simp [decode_add hop, encode_bit, Instr.operandBits, format336_low]
  | addImm d a imm => simp [decode_add hop, encode_bit, Instr.operandBits, format336_low, sext_of_fits hi]
  | andReg d a b => simp [decode_and hop, encode_bit, Instr.operandBits, format336_low]
  | andImm d a imm => simp [decode_and hop, encode_bit, Instr.operandBits, format336_low, sext_of_fits hi]
  | notReg d a => simp [decode_not hop, Instr.operandBits]
  | br n z p off => simp [decode_br hop, encode_bit, Instr.operandBits, sext_of_fits hi]
  | jmp b => simp [decode_jmp hop, Instr.operandBits]
  | jsr off => simp [decode_jsr hop, encode_bit, Instr.operandBits, sext_of_fits hi]
  | jsrr b => simp [decode_jsr hop, encode_bit, Instr.operandBits]
  | ld d off => simp [decode_ld hop, Instr.operandBits, sext_of_fits hi]
  | ldi d off => simp [decode_ldi hop, Instr.operandBits, sext_of_fits hi]
  | ldr d b off => simp [decode_ldr hop, Instr.operandBits, format336_low, sext_of_fits hi]
  | lea d off => simp [decode_lea hop, Instr.operandBits, sext_of_fits hi]
  | st r off => simp [decode_st hop, Instr.operandBits, sext_of_fits hi]
  | sti r off => simp [decode_sti hop, Instr.operandBits, sext_of_fits hi]
  | str r b off => simp [decode_str hop, Instr.operandBits, format336_low, sext_of_fits hi]
  | trap v =>
    have unserved : servedVector v = false := by simpa [Instr.wf] using hi
    simp [decode_trap hop, Instr.operandBits, decodeTrap_of_unserved unserved]
  | getc | outChar | puts | inChar | putsp | halt => simp [decode_trap hop, Instr.operandBits, decodeTrap]
  | rti => exact decode_rti hop
  | res => exact decode_res hop

/-! ### Every word (R81, R85) -/

/-- Settles O3: by the opcode, and for ADD, AND and JSR the form bit, each operand is a field of the word. -/
theorem decodedOperandsAreTheFieldsOfTheWord : Obligations.DecodedOperandsAreTheFieldsOfTheWord := by
  intro w
  have reg (k : Nat) : (Reg.ofBits (w.extractLsb' k 3)).bits = w.extractLsb' k 3 := Reg.bits_ofBits _
  rcases opcode_cases (opcodeField w) with h | h | h | h | h | h | h | h | h | h | h | h | h | h | h | h
  · rw [decode_br h]; exact ⟨h, rfl, rfl, rfl, rfl⟩
  · rw [decode_add h]
    by_cases b : w[5] = true
    · rw [if_pos b]; exact ⟨h, b, reg 9, reg 6, rfl⟩
    · rw [if_neg b]; exact ⟨h, Bool.eq_false_of_not_eq_true b, reg 9, reg 6, reg 0⟩
  · rw [decode_ld h]; exact ⟨h, reg 9, rfl⟩
  · rw [decode_st h]; exact ⟨h, reg 9, rfl⟩
  · rw [decode_jsr h]
    by_cases b : w[11] = true
    · rw [if_pos b]; exact ⟨h, b, rfl⟩
    · rw [if_neg b]; exact ⟨h, Bool.eq_false_of_not_eq_true b, reg 6⟩
  · rw [decode_and h]
    by_cases b : w[5] = true
    · rw [if_pos b]; exact ⟨h, b, reg 9, reg 6, rfl⟩
    · rw [if_neg b]; exact ⟨h, Bool.eq_false_of_not_eq_true b, reg 9, reg 6, reg 0⟩
  · rw [decode_ldr h]; exact ⟨h, reg 9, reg 6, rfl⟩
  · rw [decode_str h]; exact ⟨h, reg 9, reg 6, rfl⟩
  · rw [decode_rti h]; exact h
  · rw [decode_not h]; exact ⟨h, reg 9, reg 6⟩
  · rw [decode_ldi h]; exact ⟨h, reg 9, rfl⟩
  · rw [decode_sti h]; exact ⟨h, reg 9, rfl⟩
  · rw [decode_jmp h]; exact ⟨h, reg 6⟩
  · rw [decode_res h]; exact h
  · rw [decode_lea h]; exact ⟨h, reg 9, rfl⟩
  · rw [decode_trap h]
    rcases decodeTrap_cases (fieldVect w) with ⟨v, e⟩ | ⟨v, e⟩ | ⟨v, e⟩ | ⟨v, e⟩ | ⟨v, e⟩ | ⟨v, e⟩ | ⟨v, e⟩ <;> rw [e]
    case inr.inr.inr.inr.inr.inr => exact ⟨h, rfl, v⟩
    all_goals exact ⟨h, v⟩

/-- A decoded instruction has the opcode of its word (R81). -/
theorem decode_opcode (w : Word) : (decode w).opcode = opcodeField w := by
  have operands := decodedOperandsAreTheFieldsOfTheWord w
  generalize decode w = i at operands
  cases i with
  | rti | res => exact operands.symm
  | _ => exact operands.1.symm

/-- A decoded instruction is one the encoding can express: its offsets are extended fields (R85), and `trap` stands for no
served vector (log 17). -/
theorem decode_wf (w : Word) : (decode w).wf = true := by
  have operands := decodedOperandsAreTheFieldsOfTheWord w
  generalize decode w = i at operands ⊢
  cases i with
  | addImm | andImm | br =>
    obtain ⟨-, -, -, -, rfl⟩ := operands
    exact fits_of_sext (by decide) _
  | ldr | str =>
    obtain ⟨-, -, -, rfl⟩ := operands
    exact fits_of_sext (by decide) _
  | jsr | ld | ldi | lea | st | sti =>
    obtain ⟨-, -, rfl⟩ := operands
    exact fits_of_sext (by decide) _
  | trap v =>
    obtain ⟨-, -, unserved⟩ := operands
    simp [Instr.wf, (servedVector_eq_false_iff v).mpr unserved]
  | _ => rfl

/-- Settles O2: the opcode of the decoded instruction is that of the word, so RTI and RES come from their opcodes and
from no other. -/
theorem decoderIsTotal : Obligations.DecoderIsTotal := by
  intro w
  have row : decodeTableWord 16 w.toNat = some (decode w) := by
    have fits : w.toNat % 2 ^ 16 = w.toNat := Nat.mod_eq_of_lt w.isLt
    rw [decodeTableWord, if_pos le_rfl, fits, BitVec.ofNat_toNat, BitVec.setWidth_eq]
  have rti : decode w = .rti ↔ opcodeField w = 8 :=
    ⟨fun e => by rw [← decode_opcode, e]; rfl, decode_rti⟩
  have res : decode w = .res ↔ opcodeField w = 13 :=
    ⟨fun e => by rw [← decode_opcode, e]; rfl, decode_res⟩
  exact ⟨decode_opcode w, decode_wf w, row, rti, res⟩

/-! ### Ignored bits (R86) -/

section
variable {w m mask : Word}

/-- Bits that a mask forbids to flip are not flipped in a field within the mask. -/
theorem extract_xor_of_masked (h : m &&& mask = 0) (k n : Nat)
    (hk : mask.extractLsb' k n = BitVec.allOnes n) : (w ^^^ m).extractLsb' k n = w.extractLsb' k n := by
  have kept : m.extractLsb' k n = 0 := by
    calc m.extractLsb' k n = (m &&& mask).extractLsb' k n := by rw [BitVec.extractLsb'_and, hk, BitVec.and_allOnes]
      _ = 0 := by rw [h]; exact BitVec.extractLsb'_zero
  rw [BitVec.extractLsb'_xor, kept]
  exact BitVec.xor_zero

/-- The same for a single bit. -/
theorem bit_xor_of_masked (h : m &&& mask = 0) (k : Nat) (hk : k < 16) (hm : mask[k] = true) :
    (w ^^^ m)[k] = w[k] := by
  have kept : m[k] = false := by
    have := congrArg (fun v : Word => v[k]) h
    simpa [hm] using this
  simp [kept]

theorem opcodeField_xor (h : m &&& mask = 0) (hk : mask.extractLsb' 12 4 = BitVec.allOnes 4) :
    opcodeField (w ^^^ m) = opcodeField w := extract_xor_of_masked h 12 4 hk

theorem fieldDR_xor (h : m &&& mask = 0) (hk : mask.extractLsb' 9 3 = BitVec.allOnes 3) :
    fieldDR (w ^^^ m) = fieldDR w := congrArg Reg.ofBits (extract_xor_of_masked h 9 3 hk)

theorem fieldBase_xor (h : m &&& mask = 0) (hk : mask.extractLsb' 6 3 = BitVec.allOnes 3) :
    fieldBase (w ^^^ m) = fieldBase w := congrArg Reg.ofBits (extract_xor_of_masked h 6 3 hk)

theorem fieldSR2_xor (h : m &&& mask = 0) (hk : mask.extractLsb' 0 3 = BitVec.allOnes 3) :
    fieldSR2 (w ^^^ m) = fieldSR2 w := congrArg Reg.ofBits (extract_xor_of_masked h 0 3 hk)

theorem fieldVect_xor (h : m &&& mask = 0) (hk : mask.extractLsb' 0 8 = BitVec.allOnes 8) :
    fieldVect (w ^^^ m) = fieldVect w := extract_xor_of_masked h 0 8 hk

end

/-- Settles O4: no flipped bit is in the opcode, in a form bit or in an operand field. -/
theorem ignoredBitsDoNotMatter : Obligations.IgnoredBitsDoNotMatter := by
  intro w m
  refine ⟨?addAnd, ?not, ?jmp, ?jsrr, ?trap, ?unimplemented⟩
  case addAnd =>
    intro h b hm
    have op := opcodeField_xor (w := w) hm (by decide)
    have bit : (w ^^^ m)[5] = w[5] := bit_xor_of_masked hm 5 (by decide) (by decide)
    have dr := fieldDR_xor (w := w) hm (by decide)
    have base := fieldBase_xor (w := w) hm (by decide)
    have sr2 := fieldSR2_xor (w := w) hm (by decide)
    have unset : ¬ w[5] = true := Bool.eq_false_iff.mp b
    rcases h with h | h
    · rw [decode_add (op.trans h), decode_add h, bit, if_neg unset, if_neg unset, dr, base, sr2]
    · rw [decode_and (op.trans h), decode_and h, bit, if_neg unset, if_neg unset, dr, base, sr2]
  case not =>
    intro h hm
    have op := opcodeField_xor (w := w) hm (by decide)
    rw [decode_not (op.trans h), decode_not h, fieldDR_xor hm (by decide), fieldBase_xor hm (by decide)]
  case jmp =>
    intro h hm
    have op := opcodeField_xor (w := w) hm (by decide)
    rw [decode_jmp (op.trans h), decode_jmp h, fieldBase_xor hm (by decide)]
  case jsrr =>
    intro h b hm
    have op := opcodeField_xor (w := w) hm (by decide)
    have bit : (w ^^^ m)[11] = w[11] := bit_xor_of_masked hm 11 (by decide) (by decide)
    have unset : ¬ w[11] = true := Bool.eq_false_iff.mp b
    rw [decode_jsr (op.trans h), decode_jsr h, bit, if_neg unset, if_neg unset, fieldBase_xor hm (by decide)]
  case trap =>
    intro h hm
    have op := opcodeField_xor (w := w) hm (by decide)
    rw [decode_trap (op.trans h), decode_trap h, fieldVect_xor hm (by decide)]
  case unimplemented =>
    intro h hm
    have op := opcodeField_xor (w := w) hm (by decide)
    rcases h with h | h
    · rw [decode_rti (op.trans h), decode_rti h]
    · rw [decode_res (op.trans h), decode_res h]

/-- Settles O5: the decoder evaluates each of the ten words. -/
theorem wordsOfTheSpecDecode : Obligations.WordsOfTheSpecDecode := by
  unfold Obligations.WordsOfTheSpecDecode
  decide

end Sys2Proof.Machine
end

section
/-! What an instruction and a step can do, said once: the trap services field by field, the shapes of an instruction's
effect, and the six kinds of step. Every statement about all instructions or all steps is derived from these. -/

namespace Sys2Proof.Machine

/-! ### Operations that are others under one name -/

section
variable (s : State)

@[simp] theorem State.serviceOut_eq : s.serviceOut = s.emit [lowByte (s.reg .r0)] := rfl

@[simp] theorem State.serviceIn_eq : s.serviceIn = (s.emit s.config.inPrompt).tryIn := rfl

@[simp] theorem State.serviceHalt_eq : s.serviceHalt = (s.emit s.config.haltNotice).setRun .halted := rfl

@[simp] theorem State.serviceString_eq (mode : StringMode) :
    s.serviceString mode = stringLoop mode s.stringReads (s.reg .r0) s := rfl

@[simp] theorem State.serviceUnknown_eq (v : Byte) : s.serviceUnknown v = s.raise .unknownTrapVector v := rfl

@[simp] theorem State.loadInto_eq (d : Reg) (ea : Word) :
    s.loadInto d ea = (s.touch ea).writeDest d ((s.touch ea).cell ea) := rfl

/-! ### GETC and IN field by field (R161, R164, R168) -/

@[simp] theorem State.tryGetc_pc : s.tryGetc.pc = s.pc := by unfold State.tryGetc; split <;> rfl
@[simp] theorem State.tryGetc_cond : s.tryGetc.cond = s.cond := by unfold State.tryGetc; split <;> rfl
@[simp] theorem State.tryGetc_run : s.tryGetc.run = s.run := by unfold State.tryGetc; split <;> rfl
@[simp] theorem State.tryGetc_fault : s.tryGetc.fault = s.fault := by unfold State.tryGetc; split <;> rfl
@[simp] theorem State.tryGetc_mem : s.tryGetc.mem = s.mem := by unfold State.tryGetc; split <;> rfl
@[simp] theorem State.tryGetc_output : s.tryGetc.output = s.output := by unfold State.tryGetc; split <;> rfl
@[simp] theorem State.tryGetc_stop : s.tryGetc.stop = s.stop := by unfold State.tryGetc; split <;> rfl
@[simp] theorem State.tryGetc_config : s.tryGetc.config = s.config := by unfold State.tryGetc; split <;> rfl

/-- GETC writes no register but R0. -/
theorem State.tryGetc_reg {r : Reg} (h : r ≠ .r0) : s.tryGetc.reg r = s.reg r := by
  rcases s.tryGetc_cases with ⟨c, rest, -, e⟩ | ⟨rest, -, e⟩ <;> simp [e, h]

@[simp] theorem State.tryIn_pc : s.tryIn.pc = s.pc := by unfold State.tryIn; split <;> rfl
@[simp] theorem State.tryIn_cond : s.tryIn.cond = s.cond := by unfold State.tryIn; split <;> rfl
@[simp] theorem State.tryIn_run : s.tryIn.run = s.run := by unfold State.tryIn; split <;> rfl
@[simp] theorem State.tryIn_fault : s.tryIn.fault = s.fault := by unfold State.tryIn; split <;> rfl
@[simp] theorem State.tryIn_mem : s.tryIn.mem = s.mem := by unfold State.tryIn; split <;> rfl
@[simp] theorem State.tryIn_stop : s.tryIn.stop = s.stop := by unfold State.tryIn; split <;> rfl
@[simp] theorem State.tryIn_config : s.tryIn.config = s.config := by unfold State.tryIn; split <;> rfl

/-- IN writes no register but R0. -/
theorem State.tryIn_reg {r : Reg} (h : r ≠ .r0) : s.tryIn.reg r = s.reg r := by
  rcases s.tryIn_cases with ⟨c, rest, -, e⟩ | ⟨rest, -, e⟩ <;> simp [e, h]

/-- IN appends its echo, or nothing. -/
theorem State.tryIn_output : ∃ bs, s.tryIn.output = s.output ++ bs := by
  rcases s.tryIn_cases with ⟨c, rest, -, e⟩ | ⟨rest, -, e⟩
  · exact ⟨[c], by rw [e]; rfl⟩
  · exact ⟨[], by simp [e]⟩

/-! ### The dispatch (R160, R168) -/

/-- One property of the dispatch from the services. -/
theorem State.trapDispatch_induct {P : State → Prop} (v : Byte) (getc : P s.tryGetc) (out : P s.serviceOut)
    (string : ∀ mode, P (s.serviceString mode)) (inChar : P s.serviceIn) (halt : P s.serviceHalt)
    (unserved : servedVector v = false → P (s.serviceUnknown v)) : P (s.trapDispatch v) := by
  rcases s.trapDispatch_cases v with ⟨-, e⟩ | ⟨-, e⟩ | ⟨-, e⟩ | ⟨-, e⟩ | ⟨-, e⟩ | ⟨-, e⟩ | ⟨h, e⟩ <;> rw [e]
  · exact getc
  · exact out
  · exact string .puts
  · exact inChar
  · exact string .putsp
  · exact halt
  · exact unserved ((servedVector_eq_false_iff v).mpr h)

/-- What every TRAP leaves alone: the pc, COND, the stop request and the parameters. -/
theorem State.trapDispatch_keeps (v : Byte) : (s.trapDispatch v).pc = s.pc ∧ (s.trapDispatch v).cond = s.cond ∧
    (s.trapDispatch v).stop = s.stop ∧ (s.trapDispatch v).config = s.config :=
  s.trapDispatch_induct v (P := fun t => t.pc = s.pc ∧ t.cond = s.cond ∧ t.stop = s.stop ∧ t.config = s.config)
    (by simp) (by simp) (fun mode => by simp) (by simp) (by simp) (fun _ => by simp)

@[simp] theorem State.trapDispatch_pc (v : Byte) : (s.trapDispatch v).pc = s.pc := (s.trapDispatch_keeps v).1
@[simp] theorem State.trapDispatch_cond (v : Byte) : (s.trapDispatch v).cond = s.cond := (s.trapDispatch_keeps v).2.1
@[simp] theorem State.trapDispatch_stop (v : Byte) : (s.trapDispatch v).stop = s.stop :=
  (s.trapDispatch_keeps v).2.2.1
@[simp] theorem State.trapDispatch_config (v : Byte) : (s.trapDispatch v).config = s.config :=
  (s.trapDispatch_keeps v).2.2.2

/-- No TRAP writes a register but R0, the link aside. -/
theorem State.trapDispatch_reg (v : Byte) {r : Reg} (h : r ≠ .r0) : (s.trapDispatch v).reg r = s.reg r :=
  s.trapDispatch_induct v (P := fun t => t.reg r = s.reg r) (s.tryGetc_reg h) (by simp) (fun mode => by simp)
    ((s.emit s.config.inPrompt).tryIn_reg h) (by simp) (fun _ => by simp)

/-- Every TRAP appends to the output, if only nothing. -/
theorem State.trapDispatch_output (v : Byte) : ∃ bs, (s.trapDispatch v).output = s.output ++ bs := by
  refine s.trapDispatch_induct v (P := fun t => ∃ bs, t.output = s.output ++ bs) ?getc ⟨_, rfl⟩ ?string ?inChar
    ⟨_, rfl⟩ ?unserved
  case getc => exact ⟨[], by simp⟩
  case string => exact fun mode => stringLoop_output s mode _ _
  case inChar =>
    obtain ⟨bs, e⟩ := (s.emit s.config.inPrompt).tryIn_output
    exact ⟨s.config.inPrompt ++ bs, by simp [e]⟩
  case unserved => exact fun _ => ⟨[], by simp⟩

/-! ### RTI and RES (R180) -/

/-- Everything RTI and RES can do. -/
theorem State.unimplemented_cases (op : Byte) :
    (s.config.unimplPolicy = .fault ∧ s.unimplemented op = s.raise .unimplementedOpcode op) ∨
      (s.config.unimplPolicy = .nop ∧ s.unimplemented op = s) := by
  unfold State.unimplemented
  split
  · exact .inl ⟨‹_›, rfl⟩
  · exact .inr ⟨‹_›, rfl⟩

end

/-! ### The effect of an instruction (R114) -/

/-- `ReadsBy i s u`: `u` is `s` after the side effects of reads, of which there is none unless `i` reads memory (R55). -/
inductive ReadsBy (i : Instr) (s : State) : State → Prop where
  | nothing : ReadsBy i s s
  | cell {u : State} (a : Word) : readsMemory i = true → ReadsBy i s u → ReadsBy i s (u.touch a)

/-- The shapes an instruction's effect can have: a write of a destination register with its flags, a jump, a call, a
store, a TRAP, and what RTI and RES do. -/
inductive Effect (i : Instr) (s : State) : State → Prop where
  | dest {u : State} {d : Reg} (v : Word) : ReadsBy i s u → flagDest i = some d → Effect i s (u.writeDest d v)
  | jump (v : Word) : writesPc i = true → Effect i s (s.setPc v)
  | call (v : Word) : writesPc i = true → writtenRegs i = [.r7] → Effect i s (s.link.setPc v)
  | store {u : State} {a : Word} (v : Word) : ReadsBy i s u → storeAddress s i = some a → Effect i s (u.memWrite a v)
  | trap (v : Byte) : i = .trap v ∨ i = decodeTrap v → Effect i s (s.link.trapDispatch v)
  | unimplemented (op : Byte) : i = .rti ∧ op = 8 ∨ i = .res ∧ op = 13 → Effect i s (s.unimplemented op)

/-- Every instruction answers a next state, with an effect of one of these shapes. -/
theorem exec_next (i : Instr) (s : State) : ∃ t, exec i s = .next t ∧ Effect i s t := by
  cases i with
  | addReg | addImm | andReg | andImm | notReg | lea => exact ⟨_, rfl, .dest _ .nothing rfl⟩
  | ld | ldr => exact ⟨_, rfl, .dest _ (.cell _ rfl .nothing) rfl⟩
  | ldi => exact ⟨_, rfl, .dest _ (.cell _ rfl (.cell _ rfl .nothing)) rfl⟩
  | br n z p off =>
    by_cases h : branchTaken n z p s.cond = true
    · exact ⟨_, exec_br_of_taken h off, .jump _ rfl⟩
    · exact ⟨_, exec_br_of_not_taken h off, .jump s.pc rfl⟩
  | jmp => exact ⟨_, rfl, .jump _ rfl⟩
  | jsr | jsrr => exact ⟨_, rfl, .call _ rfl rfl⟩
  | st | str => exact ⟨_, rfl, .store _ .nothing rfl⟩
  | sti => exact ⟨_, rfl, .store _ (.cell _ rfl .nothing) rfl⟩
  | trap v => exact ⟨_, rfl, .trap v (.inl rfl)⟩
  | getc => exact ⟨_, rfl, .trap 0x20 (.inr rfl)⟩
  | outChar => exact ⟨_, rfl, .trap 0x21 (.inr rfl)⟩
  | puts => exact ⟨_, rfl, .trap 0x22 (.inr rfl)⟩
  | inChar => exact ⟨_, rfl, .trap 0x23 (.inr rfl)⟩
  | putsp => exact ⟨_, rfl, .trap 0x24 (.inr rfl)⟩
  | halt => exact ⟨_, rfl, .trap 0x25 (.inr rfl)⟩
  | rti => exact ⟨_, rfl, .unimplemented 8 (.inl ⟨rfl, rfl⟩)⟩
  | res => exact ⟨_, rfl, .unimplemented 13 (.inr ⟨rfl, rfl⟩)⟩

theorem exec_effect {i : Instr} {s t : State} (h : exec i s = .next t) : Effect i s t := by
  obtain ⟨u, hu, effect⟩ := exec_next i s
  obtain rfl : u = t := Host.Outcome.next.inj (hu.symm.trans h)
  exact effect

section
variable {i : Instr} {s u : State}

/-- Reads change nothing but the memory and the input (R53). -/
theorem ReadsBy.keeps (h : ReadsBy i s u) : u.regs = s.regs ∧ u.pc = s.pc ∧ u.output = s.output ∧
    KeepsControl s u := by
  induction h with
  | nothing => exact ⟨rfl, rfl, rfl, rfl, rfl, rfl, rfl, rfl⟩
  | cell a _ _ ih => simpa [KeepsControl] using ih

theorem ReadsBy.mem_wf (h : ReadsBy i s u) (hm : s.mem.wf) : u.mem.wf := by
  induction h with
  | nothing => exact hm
  | cell a _ _ ih => exact State.touch_mem_wf _ ih a

end

/-! ### The kinds of step (R110 to R112) -/

section
variable {s : State}

/-- The activity inside a string routine says which and where. -/
theorem Activity.cases (a : Activity) : a = .idle ∨ a = .getc ∨ a = .inChar ∨
    ∃ (mode : StringMode) (b : Word), a = mode.activity b := by
  cases a with
  | idle => exact .inl rfl
  | getc => exact .inr (.inl rfl)
  | inChar => exact .inr (.inr (.inl rfl))
  | puts b => exact .inr (.inr (.inr ⟨.puts, b, rfl⟩))
  | putsp b => exact .inr (.inr (.inr ⟨.putsp, b, rfl⟩))

theorem step_of_idle (hr : s.run = .running) (ha : s.activity = .idle) : step s = cycle s := by
  simp [step, hr, ha]

theorem step_of_fetch (hr : s.run = .running) (ha : s.activity = .idle) (hs : s.stop.raised = false) :
    step s = exec (decode ((s.setStop s.stop.tick).memRead s.pc).1)
      (((s.setStop s.stop.tick).memRead s.pc).2.setPc (s.pc + 1)) := by
  rw [step_of_idle hr ha]
  exact if_neg (Bool.eq_false_iff.mp hs)

theorem step_of_getc (hr : s.run = .running) (ha : s.activity = .getc) :
    step s = .next (if s.stop.raised then s.cancel else s.sampled.tryGetc) := by
  simp only [step, hr, ha, State.resume]

theorem step_of_inChar (hr : s.run = .running) (ha : s.activity = .inChar) :
    step s = .next (if s.stop.raised then s.cancel else s.sampled.tryIn) := by
  simp only [step, hr, ha, State.resume]

/-- Between instructions and in a hold a raised stop request is found (R190). -/
theorem step_of_raised (hr : s.run = .running)
    (ha : s.activity = .idle ∨ s.activity = .getc ∨ s.activity = .inChar) (hs : s.stop.raised = true) :
    step s = .next s.cancel := by
  rcases ha with ha | ha | ha
  · rw [step_of_idle hr ha]
    exact if_pos hs
  · rw [step_of_getc hr ha, if_pos hs]
  · rw [step_of_inChar hr ha, if_pos hs]

theorem step_of_string {mode : StringMode} {a : Word} (hr : s.run = .running) (ha : s.activity = mode.activity a) :
    step s = .next (stringLoop mode s.stringReads a s) := by
  cases mode <;> simp only [StringMode.activity] at ha <;> simp only [step, hr, ha, State.resume]

end

/-- The kinds of step: of an ended core, the stop request, a whole instruction, a question of GETC's or IN's hold, a
round of an unending string routine. -/
inductive StepKind (s : State) : State → Prop where
  | ended : s.Ended → StepKind s s
  | cancel : s.run = .running → s.activity = .idle ∨ s.activity = .getc ∨ s.activity = .inChar →
      s.stop.raised = true → StepKind s s.cancel
  | whole {t : State} : s.run = .running → s.activity = .idle → s.stop.raised = false →
      exec (decode ((s.setStop s.stop.tick).memRead s.pc).1)
        (((s.setStop s.stop.tick).memRead s.pc).2.setPc (s.pc + 1)) = .next t → StepKind s t
  | getc : s.run = .running → s.activity = .getc → s.stop.raised = false → StepKind s s.sampled.tryGetc
  | inChar : s.run = .running → s.activity = .inChar → s.stop.raised = false → StepKind s s.sampled.tryIn
  | string {mode : StringMode} {a : Word} : s.run = .running → s.activity = mode.activity a →
      StepKind s (stringLoop mode s.stringReads a s)

/-- Every step answers a next state and is of one of these kinds. -/
theorem step_next (s : State) : ∃ t, step s = .next t ∧ StepKind s t := by
  by_cases hr : s.run = .running
  case neg => exact ⟨s, step_of_ended hr, .ended hr⟩
  have raised (ha : s.activity = .idle ∨ s.activity = .getc ∨ s.activity = .inChar) (hs : s.stop.raised = true) :
      ∃ t, step s = .next t ∧ StepKind s t := ⟨s.cancel, step_of_raised hr ha hs, .cancel hr ha hs⟩
  rcases s.activity.cases with ha | ha | ha | ⟨mode, a, ha⟩ <;> cases hs : s.stop.raised
  case inl.true => exact raised (.inl ha) hs
  case inl.false =>
    obtain ⟨t, ht, -⟩ := exec_next (decode ((s.setStop s.stop.tick).memRead s.pc).1)
      (((s.setStop s.stop.tick).memRead s.pc).2.setPc (s.pc + 1))
    exact ⟨t, (step_of_fetch hr ha hs).trans ht, .whole hr ha hs ht⟩
  case inr.inl.true => exact raised (.inr (.inl ha)) hs
  case inr.inl.false =>
    exact ⟨_, by rw [step_of_getc hr ha, if_neg (Bool.eq_false_iff.mp hs)], .getc hr ha hs⟩
  case inr.inr.inl.true => exact raised (.inr (.inr ha)) hs
  case inr.inr.inl.false =>
    exact ⟨_, by rw [step_of_inChar hr ha, if_neg (Bool.eq_false_iff.mp hs)], .inChar hr ha hs⟩
  all_goals exact ⟨_, step_of_string hr ha, .string hr ha⟩

theorem step_kind {s t : State} (h : step s = .next t) : StepKind s t := by
  obtain ⟨u, hu, kind⟩ := step_next s
  obtain rfl : u = t := Host.Outcome.next.inj (hu.symm.trans h)
  exact kind

/-- Settles O57: both are part of saying what an instruction and a step can do. -/
theorem everyInstructionAndStepAnswersANextState : Obligations.EveryInstructionAndStepAnswersANextState :=
  ⟨fun i s => (exec_next i s).imp fun _ h => h.1, fun s => (step_next s).imp fun _ h => h.1⟩

end Sys2Proof.Machine
end

section
/-! The invariant of every run (R31, R160, R166, R185, R218): what makes a state meet it, and that the launch and every step
do. -/

namespace Sys2Proof.Machine

section
variable {s t : State}

/-- Without a fault the record says nothing (R31). -/
theorem State.FaultRecordOk.of_none (h : s.fault.kind = .none) : s.FaultRecordOk := by
  simp [State.FaultRecordOk, h]

/-- The invariant of a state without a fault. -/
theorem State.Inv.of_noFault (memory : s.mem.wf) (config : s.config.wf) (kind : s.fault.kind = .none)
    (run : s.run ≠ .faulted) (inside : s.activity ≠ .idle → s.run = .running ∧ s.reg .r7 = s.pc)
    (halted : s.run = .halted → s.reg .r7 = s.pc) : s.Inv :=
  ⟨memory, config, iff_of_true kind run, .of_none kind, inside, halted⟩

theorem State.Inv.kind_of_running (h : s.Inv) (hr : s.run = .running) : s.fault.kind = .none :=
  h.record.mpr (by rw [hr]; decide)

/-- From a core between instructions, whatever keeps the control state keeps the invariant. -/
theorem State.Inv.of_idle (h : s.Inv) (hr : s.run = .running) (ha : s.activity = .idle) (control : KeepsControl s t)
    (memory : t.mem.wf) : t.Inv := by
  obtain ⟨run, fault, activity, -, config⟩ := control
  have running : t.run = .running := run.trans hr
  have idle : t.activity = .idle := activity.trans ha
  exact .of_noFault memory (config ▸ h.config) (fault ▸ h.kind_of_running hr) (by simp [running])
    (fun inside => absurd idle inside) (by simp [running])

/-- From a core inside a TRAP, whatever keeps the link and the run state keeps the invariant (R160). -/
theorem State.Inv.of_linked (h : s.Inv) (hr : s.run = .running) (hl : s.reg .r7 = s.pc) (run : t.run = s.run)
    (fault : t.fault = s.fault) (config : t.config = s.config) (pc : t.pc = s.pc) (reg : t.reg .r7 = s.reg .r7)
    (memory : t.mem.wf) : t.Inv := by
  have running : t.run = .running := run.trans hr
  have linked : t.reg .r7 = t.pc := by rw [reg, pc, hl]
  exact .of_noFault memory (config ▸ h.config) (fault ▸ h.kind_of_running hr) (by simp [running])
    (fun _ => ⟨running, linked⟩) (fun _ => linked)

/-! ### The operations that end a step -/

theorem State.cancel_inv (h : s.Inv) (hr : s.run = .running) : s.cancel.Inv :=
  .of_noFault h.memory h.config (h.kind_of_running hr) (by simp) (by simp) (by simp)

theorem State.tryGetc_inv (h : s.Inv) (hr : s.run = .running) (hl : s.reg .r7 = s.pc) : s.tryGetc.Inv :=
  h.of_linked hr hl (by simp) (by simp) (by simp) (by simp) (s.tryGetc_reg (by decide)) (by simpa using h.memory)

theorem State.tryIn_inv (h : s.Inv) (hr : s.run = .running) (hl : s.reg .r7 = s.pc) : s.tryIn.Inv :=
  h.of_linked hr hl (by simp) (by simp) (by simp) (by simp) (s.tryIn_reg (by decide)) (by simpa using h.memory)

theorem stringLoop_inv (h : s.Inv) (hr : s.run = .running) (hl : s.reg .r7 = s.pc) (mode : StringMode) (n : Nat)
    (a : Word) : (stringLoop mode n a s).Inv :=
  h.of_linked hr hl (by simp) (by simp) (by simp) (by simp) (by simp) (stringLoop_mem_wf s mode n a h.memory)

/-- Bytes of output are not spoken of by the invariant. -/
theorem State.emit_inv (h : s.Inv) (bs : List Byte) : (s.emit bs).Inv :=
  ⟨h.memory, h.config, h.record, h.recordOk, h.inside, h.halted⟩

/-- Nor is the stop request. -/
theorem State.setStop_inv (h : s.Inv) (r : StopRequest) : (s.setStop r).Inv :=
  ⟨h.memory, h.config, h.record, h.recordOk, h.inside, h.halted⟩

/-- HALT leaves a linked core with R7 at the pc (R166). -/
theorem State.serviceHalt_inv (h : s.Inv) (hr : s.run = .running) (ha : s.activity = .idle)
    (hl : s.reg .r7 = s.pc) : s.serviceHalt.Inv :=
  .of_noFault h.memory h.config (h.kind_of_running hr) (by simp) (by simp [ha]) (fun _ => hl)

/-- A fault between instructions leaves a record that R31 and R185 allow. -/
theorem State.raise_inv (h : s.Inv) (ha : s.activity = .idle) {kind : FaultKind} (value : Byte)
    (hk : kind ≠ .none) (ok : (s.raise kind value).FaultRecordOk) : (s.raise kind value).Inv :=
  ⟨h.memory, h.config, by simp [hk], ok, by simp [ha], by simp⟩

/-- The pc is the fault's address plus one (R186). -/
theorem State.raise_pc_eq_addr_add_one (s : State) (kind : FaultKind) (value : Byte) :
    (s.raise kind value).pc = (s.raise kind value).fault.addr + 1 := by
  simp

theorem State.trapDispatch_inv (h : s.Inv) (hr : s.run = .running) (ha : s.activity = .idle)
    (hl : s.reg .r7 = s.pc) (v : Byte) : (s.trapDispatch v).Inv := by
  refine s.trapDispatch_induct v ?getc ?out ?string ?inChar ?halt ?unserved
  case getc => exact State.tryGetc_inv h hr hl
  case out => exact State.emit_inv h _
  case string => exact fun mode => stringLoop_inv h hr hl mode _ _
  case inChar => exact State.tryIn_inv (State.emit_inv h _) hr hl
  case halt => exact State.serviceHalt_inv h hr ha hl
  case unserved =>
    intro unserved
    exact State.raise_inv h ha v (by decide) ⟨unserved, s.raise_pc_eq_addr_add_one _ _, hl⟩

theorem State.unimplemented_inv (h : s.Inv) (ha : s.activity = .idle) {op : Byte} (hop : op = 8 ∨ op = 13) :
    (s.unimplemented op).Inv := by
  rcases s.unimplemented_cases op with ⟨policy, e⟩ | ⟨-, e⟩ <;> rw [e]
  · exact State.raise_inv h ha op (by decide) ⟨policy, hop, s.raise_pc_eq_addr_add_one _ _⟩
  · exact h

/-! ### Instructions and steps -/

theorem KeepsControl.refl (s : State) : KeepsControl s s := ⟨rfl, rfl, rfl, rfl, rfl⟩

/-- Every instruction of a core between instructions keeps the invariant. -/
theorem exec_inv {i : Instr} (h : s.Inv) (hr : s.run = .running) (ha : s.activity = .idle)
    (ht : exec i s = .next t) : t.Inv := by
  cases exec_effect ht with
  | dest v reads _ =>
    obtain ⟨-, -, -, control⟩ := reads.keeps
    exact h.of_idle hr ha control (reads.mem_wf h.memory)
  | jump v _ => exact h.of_idle hr ha (KeepsControl.refl s) h.memory
  | call v _ _ => exact h.of_idle hr ha (KeepsControl.refl s) h.memory
  | store v reads _ =>
    obtain ⟨-, -, -, control⟩ := reads.keeps
    exact h.of_idle hr ha control (Memory.put_wf (reads.mem_wf h.memory) _ _)
  | trap v _ =>
    have linked : s.link.Inv := h.of_idle hr ha (KeepsControl.refl s) h.memory
    exact State.trapDispatch_inv linked hr ha s.link_reg_r7 v
  | unimplemented op hop =>
    exact State.unimplemented_inv h ha (hop.imp And.right And.right)

/-- The sampling, the fetch and the increment keep it (R111). -/
theorem fetched_inv (h : s.Inv) (hr : s.run = .running) (ha : s.activity = .idle) :
    (((s.setStop s.stop.tick).memRead s.pc).2.setPc (s.pc + 1)).Inv :=
  have sampled : (s.setStop s.stop.tick).Inv := State.setStop_inv h _
  sampled.of_idle hr ha (by simp [KeepsControl]) (State.touch_mem_wf _ sampled.memory _)

end

/-- Settles O56: by the kind of step, each of which ends in an operation that keeps the invariant. -/
theorem everyStepKeepsTheInvariant : Obligations.EveryStepKeepsTheInvariant := by
  intro s t h ht
  cases step_kind ht with
  | ended _ => exact h
  | cancel hr _ _ => exact State.cancel_inv h hr
  | whole hr ha _ he => exact exec_inv (fetched_inv h hr ha) (by simpa using hr) (by simpa using ha) he
  | getc hr ha _ =>
    obtain ⟨-, linked⟩ := h.inside (by simp [ha])
    exact State.tryGetc_inv (State.setStop_inv h _) hr linked
  | inChar hr ha _ =>
    obtain ⟨-, linked⟩ := h.inside (by simp [ha])
    exact State.tryIn_inv (State.setStop_inv h _) hr linked
  | @string mode a hr ha =>
    obtain ⟨-, linked⟩ := h.inside (by cases mode <;> simp [ha, StringMode.activity])
    exact stringLoop_inv h hr linked mode _ _

/-- Settles O55: the load port keeps the canonical form, and the reset state is a launch state. -/
theorem launchStatesMeetTheInvariant : Obligations.LaunchStatesMeetTheInvariant := by
  have launch (regs : Regs) (writes : List (Word × Word)) (input : InputChannel) (stop : StopRequest)
      (config : Config) (hc : config.wf) : (State.launch regs writes input stop config).Inv :=
    .of_noFault (Memory.load_wf ⟨.nil, nofun⟩ writes) hc rfl nofun (fun inside => absurd rfl inside) nofun
  exact ⟨launch, launch ⟨0, 0, 0, 0, 0, 0, 0, 0⟩ [] ⟨[], .ended⟩ .never Config.default (by decide)⟩

end Sys2Proof.Machine
end

section
/-! How a run ends and what an instruction may change, of all instructions and steps at once (R23, R25, R37, R55, R115,
R187): each is read off the shapes of an instruction's effect and the kinds of step. -/

namespace Sys2Proof.Machine

/-! ### The run state (R115, R187) -/

section
variable {i : Instr} {s t u : State}

/-- The vector alone tells whether the dispatch ends the run. -/
theorem State.trapDispatch_run (s : State) (v : Byte) : (s.trapDispatch v).run = s.run ∨
    (v = 0x25 ∧ (s.trapDispatch v).run = .halted) ∨ (servedVector v = false ∧ (s.trapDispatch v).run = .faulted) := by
  rcases s.trapDispatch_cases v with ⟨-, e⟩ | ⟨-, e⟩ | ⟨-, e⟩ | ⟨-, e⟩ | ⟨-, e⟩ | ⟨h, e⟩ | ⟨h, e⟩ <;> rw [e]
  case inr.inr.inr.inr.inr.inl => exact .inr (.inl ⟨h, rfl⟩)
  case inr.inr.inr.inr.inr.inr => exact .inr (.inr ⟨(servedVector_eq_false_iff v).mpr h, rfl⟩)
  all_goals exact .inl (by simp)

/-- `i` is a HALT that ends the run of `s`. -/
def Halts (i : Instr) : Prop := i = .halt ∨ i = .trap 0x25

/-- `i` faults in `s` (R187). -/
def Faults (i : Instr) (s : State) : Prop :=
  (∃ v, i = .trap v ∧ (v.toNat < 0x20 ∨ 0x25 < v.toNat)) ∨ (s.config.unimplPolicy = .fault ∧ (i = .rti ∨ i = .res))

/-- An instruction leaves the run state alone, halts or faults. -/
theorem exec_run (h : exec i s = .next t) :
    t.run = s.run ∨ (Halts i ∧ t.run = .halted) ∨ (Faults i s ∧ t.run = .faulted) := by
  cases exec_effect h with
  | dest v reads _ | store v reads _ =>
    obtain ⟨-, -, -, run, -⟩ := reads.keeps
    exact .inl run
  | jump | call => exact .inl rfl
  | trap v hv =>
    rcases s.link.trapDispatch_run v with run | ⟨rfl, run⟩ | ⟨unserved, run⟩
    · exact .inl run
    · exact .inr (.inl ⟨hv.symm, run⟩)
    · rw [decodeTrap_of_unserved unserved, or_self] at hv
      exact .inr (.inr ⟨.inl ⟨v, hv, (servedVector_eq_false_iff v).mp unserved⟩, run⟩)
  | unimplemented op hop =>
    rcases s.unimplemented_cases op with ⟨policy, e⟩ | ⟨-, e⟩ <;> rw [e]
    · exact .inr (.inr ⟨.inr ⟨policy, hop.imp And.left And.left⟩, rfl⟩)
    · exact .inl rfl

/-- Settles O54: the one other way an instruction writes the run state is HALT's. -/
theorem onlyTrapRtiResCanFault : Obligations.OnlyTrapRtiResCanFault := by
  intro i s t h hs ht
  rcases exec_run h with run | ⟨-, run⟩ | ⟨faults, -⟩
  · exact absurd (run.symm.trans ht) hs
  · exact absurd (run.symm.trans ht) (by decide)
  · exact faults

/-- The decoder names HALT by its own constructor (log 17). -/
theorem eq_halt_of_decode {w : Word} (h : Halts (decode w)) : decode w = .halt := by
  refine h.resolve_right fun e => ?_
  have wf := decode_wf w
  rw [e] at wf
  exact absurd wf (by decide)

end

/-- Settles O39: by the kind of step, and for a whole instruction by what it does with the run state. -/
theorem runEndsInExactlyThreeWays : Obligations.RunEndsInExactlyThreeWays := by
  intro s t hr ht hne
  cases step_kind ht with
  | ended h => exact absurd hr h
  | cancel _ _ hs => exact .inr (.inr ⟨rfl, hs⟩)
  | whole _ ha hs he =>
    rcases exec_run he with run | ⟨halts, run⟩ | ⟨faults, run⟩
    · exact absurd (run.trans (by simpa using hr)) hne
    · exact .inl ⟨run, ha, hs, eq_halt_of_decode halts⟩
    · refine .inr (.inl ⟨run, ha, hs, faults.imp (fun ⟨v, e, hv⟩ => ⟨v, hv, e⟩) ?_⟩)
      rintro ⟨policy, e⟩
      exact ⟨by simpa using policy, e⟩
  | getc => exact absurd (by simpa using hr) hne
  | inChar => exact absurd (by simpa using hr) hne
  | string => exact absurd (by simpa using hr) hne

/-! ### The output and the parameters (R37, R180) -/

/-- `t` has the output of `s` with bytes appended, and its parameters. -/
def Extends (s t : State) : Prop := (∃ bs, t.output = s.output ++ bs) ∧ t.config = s.config

section
variable {i : Instr} {s t u : State}

theorem Extends.of_eq (output : t.output = s.output) (config : t.config = s.config) : Extends s t :=
  ⟨⟨[], by rw [output, List.append_nil]⟩, config⟩

theorem Extends.trans (h : Extends s t) (k : Extends t u) : Extends s u := by
  obtain ⟨⟨bs, hb⟩, hc⟩ := h
  obtain ⟨⟨cs, kb⟩, kc⟩ := k
  exact ⟨⟨bs ++ cs, by rw [kb, hb, List.append_assoc]⟩, kc.trans hc⟩

theorem exec_extends (h : exec i s = .next t) : Extends s t := by
  cases exec_effect h with
  | dest v reads _ | store v reads _ =>
    obtain ⟨-, -, output, -, -, -, -, config⟩ := reads.keeps
    exact .of_eq output config
  | jump | call => exact .of_eq rfl rfl
  | trap v _ => exact ⟨s.link.trapDispatch_output v, s.link.trapDispatch_config v⟩
  | unimplemented op _ => rcases s.unimplemented_cases op with ⟨-, e⟩ | ⟨-, e⟩ <;> rw [e] <;> exact .of_eq rfl rfl

theorem step_extends (h : step s = .next t) : Extends s t := by
  cases step_kind h with
  | ended | cancel => exact .of_eq rfl rfl
  | whole _ _ _ he => exact Extends.trans (.of_eq (by simp) (by simp)) (exec_extends he)
  | getc => exact .of_eq (by simp) (by simp)
  | inChar => exact ⟨s.sampled.tryIn_output, by simp⟩
  | string => exact ⟨stringLoop_output s _ _ _, by simp⟩

/-- What holds of a state and is kept by every step holds along every run from it. -/
theorem Reaches.invariant {P : State → Prop} (h : P s) (keeps : ∀ t u, P t → Machine.step t = .next u → P u)
    (hr : Reaches s t) : P t := by
  induction hr with
  | refl => exact h
  | step _ hu ih => exact keeps _ _ ih hu

end

/-- Settles O58: every step extends the output and keeps the parameters. -/
theorem outputOnlyGrowsAndParametersStay : Obligations.OutputOnlyGrowsAndParametersStay := fun s _ =>
  Reaches.invariant (P := Extends s) (.of_eq rfl rfl) fun _ _ h hu => h.trans (step_extends hu)

/-! ### The registers and the pc (R23, R25) -/

/-- Decoding a vector does not change what the tables say of a TRAP. -/
theorem writtenRegs_decodeTrap (v : Byte) : writtenRegs (decodeTrap v) = writtenRegs (.trap v) := by
  revert v; decide

theorem readsMemory_decodeTrap (v : Byte) : readsMemory (decodeTrap v) = readsMemory (.trap v) := by
  revert v; decide

section
variable {i : Instr} {s t u : State}

theorem writtenRegs_of_flagDest {d : Reg} (h : flagDest i = some d) : writtenRegs i = [d] := by
  cases i <;> cases h <;> rfl

/-- A TRAP writes R0 only for GETC and IN. -/
theorem State.trapDispatch_reg_of_quiet (s : State) {v : Byte} (h : ¬ (v = 0x20#8 ∨ v = 0x23#8)) (r : Reg) :
    (s.trapDispatch v).reg r = s.reg r := by
  rcases s.trapDispatch_cases v with ⟨hv, e⟩ | ⟨hv, e⟩ | ⟨hv, e⟩ | ⟨hv, e⟩ | ⟨hv, e⟩ | ⟨hv, e⟩ | ⟨hv, e⟩
  case inl => exact absurd (.inl hv) h
  case inr.inr.inr.inl => exact absurd (.inr hv) h
  all_goals rw [e]; simp

/-- What writes no register but R0 after the link has written no register but R0 and R7. -/
theorem keepsRegs_of_link (h : ∀ r, r ≠ .r0 → t.reg r = s.link.reg r) : KeepsRegs [.r0, .r7] s t := by
  intro r hr
  obtain ⟨h0, h7⟩ : r ≠ .r0 ∧ r ≠ .r7 := by simpa using hr
  rw [h r h0, s.link_keepsRegs r (by simpa using h7)]

theorem trap_keepsRegs (s : State) (v : Byte) : KeepsRegs (writtenRegs (.trap v)) s (s.link.trapDispatch v) := by
  by_cases hv : v = 0x20#8 ∨ v = 0x23#8
  · rw [writtenRegs, if_pos hv]
    exact keepsRegs_of_link fun r hr => s.link.trapDispatch_reg v hr
  · rw [writtenRegs, if_neg hv]
    exact fun r hr => (s.link.trapDispatch_reg_of_quiet hv r).trans (s.link_keepsRegs r hr)

end

/-- Settles O60: by the shape of the effect, which names the registers and whether the pc is written. -/
theorem instructionsWriteOnlyTheListedRegisters : Obligations.InstructionsWriteOnlyTheListedRegisters := by
  intro i s t h
  cases exec_effect h with
  | @dest u d v reads hd =>
    obtain ⟨regs, pc, -⟩ := reads.keeps
    rw [writtenRegs_of_flagDest hd]
    obtain ⟨-, -, others, -⟩ := u.writeDest_writesOnlyDest d v
    exact ⟨fun r hr => (others r hr).trans (congrArg (Regs.get · r) regs), fun _ => pc⟩
  | jump v hp => exact ⟨fun _ _ => rfl, fun hn => absurd (hp.symm.trans hn) (by decide)⟩
  | call v hp hw =>
    rw [hw]
    exact ⟨s.link_keepsRegs, fun hn => absurd (hp.symm.trans hn) (by decide)⟩
  | store v reads _ =>
    obtain ⟨regs, pc, -⟩ := reads.keeps
    exact ⟨fun r _ => congrArg (Regs.get · r) regs, fun _ => pc⟩
  | trap v hv =>
    have table : writtenRegs i = writtenRegs (.trap v) := by
      rcases hv with rfl | rfl
      · rfl
      · exact writtenRegs_decodeTrap v
    rw [table]
    exact ⟨trap_keepsRegs s v, fun _ => s.link.trapDispatch_pc v⟩
  | unimplemented op _ =>
    rcases s.unimplemented_cases op with ⟨-, e⟩ | ⟨-, e⟩ <;> rw [e] <;> exact ⟨fun _ _ => rfl, fun _ => rfl⟩

/-! ### The memory (R55, R70) -/

section
variable {i : Instr} {s t u : State}

/-- Reads change no cell but the keyboard registers (R53). -/
theorem ReadsBy.cell_of_ne (h : ReadsBy i s u) {a : Word} (hs : a ≠ s.config.kbsrAddr) (hd : a ≠ s.config.kbdrAddr) :
    u.cell a = s.cell a := by
  induction h with
  | nothing => rfl
  | @cell u b _ hu ih =>
    obtain ⟨-, -, -, -, -, -, -, config⟩ := hu.keeps
    rw [u.touch_cell_of_ne (config ▸ hs) (config ▸ hd), ih]

theorem ReadsBy.eq_of_not_reads (h : ReadsBy i s u) (hi : readsMemory i = false) : u = s := by
  cases h with
  | nothing => rfl
  | cell a hr _ => exact absurd (hr.symm.trans hi) (by decide)

/-- A cell that reads change is a keyboard register. -/
theorem ReadsBy.changed (h : ReadsBy i s u) {a : Word} (ha : u.cell a ≠ s.cell a) :
    readsMemory i = true ∧ (a = s.config.kbsrAddr ∨ a = s.config.kbdrAddr) := by
  refine ⟨?_, ?_⟩
  · by_contra hi
    rw [h.eq_of_not_reads (Bool.eq_false_of_not_eq_true hi)] at ha
    exact ha rfl
  · by_contra hk
    obtain ⟨hs, hd⟩ := not_or.mp hk
    exact ha (h.cell_of_ne hs hd)

/-- A TRAP changes memory only in the keyboard registers, and only in PUTS and PUTSP. -/
theorem State.trapDispatch_cell_of_ne (s : State) (v : Byte) {a : Word} (hs : a ≠ s.config.kbsrAddr)
    (hd : a ≠ s.config.kbdrAddr) : (s.trapDispatch v).cell a = s.cell a :=
  s.trapDispatch_induct v (P := fun t => t.cell a = s.cell a) (congrArg (Memory.get · a) s.tryGetc_mem) rfl
    (fun mode => stringLoop_cell s mode _ _ hs hd)
    (congrArg (Memory.get · a) (s.emit s.config.inPrompt).tryIn_mem) rfl (fun _ => rfl)

theorem State.trapDispatch_mem_of_not_reads (s : State) {v : Byte} (h : readsMemory (.trap v) = false) :
    (s.trapDispatch v).mem = s.mem := by
  rcases s.trapDispatch_cases v with ⟨hv, e⟩ | ⟨hv, e⟩ | ⟨rfl, e⟩ | ⟨hv, e⟩ | ⟨rfl, e⟩ | ⟨hv, e⟩ | ⟨hv, e⟩
  case inr.inr.inl => exact absurd h (by decide)
  case inr.inr.inr.inr.inl => exact absurd h (by decide)
  all_goals rw [e]; simp

end

/-- Settles O59: by the shape of the effect. A store's own cell is the one it names; any other change of a cell is one of
the reads before it. -/
theorem memoryChangesByStoresAndPollsOnly : Obligations.MemoryChangesByStoresAndPollsOnly := by
  intro i s t h
  cases exec_effect h with
  | @dest u d v reads _ =>
    have unread (hi : readsMemory i = false) : u.mem = s.mem := congrArg State.mem (reads.eq_of_not_reads hi)
    exact ⟨fun a ha => .inr (reads.changed ha), fun _ hi => unread hi⟩
  | jump | call => exact ⟨fun a ha => absurd rfl ha, fun _ _ => rfl⟩
  | @store u b v reads hb =>
    refine ⟨fun a ha => ?_, fun hn => absurd (hb.symm.trans hn) (by simp)⟩
    by_cases hab : a = b
    · exact .inl (hab ▸ hb)
    · have same : (u.memWrite b v).cell a = u.cell a := u.setCell_keepsMemoryBut b v a hab
      exact .inr (reads.changed (same ▸ ha))
  | trap v hv =>
    have table : readsMemory i = readsMemory (.trap v) := by
      rcases hv with rfl | rfl
      · rfl
      · exact readsMemory_decodeTrap v
    rw [table]
    refine ⟨fun a ha => .inr ⟨?_, ?_⟩, fun _ hi => s.link.trapDispatch_mem_of_not_reads hi⟩
    · by_contra hi
      exact ha (congrArg (Memory.get · a)
        (s.link.trapDispatch_mem_of_not_reads (Bool.eq_false_of_not_eq_true hi)))
    · by_contra hk
      obtain ⟨hs, hd⟩ := not_or.mp hk
      exact ha (s.link.trapDispatch_cell_of_ne v hs hd)
  | unimplemented op _ =>
    rcases s.unimplemented_cases op with ⟨-, e⟩ | ⟨-, e⟩ <;> rw [e] <;>
      exact ⟨fun a ha => absurd rfl ha, fun _ _ => rfl⟩

/-! ### Every TRAP (R160) -/

/-- An instruction of opcode 15 is a TRAP with some vector. -/
theorem exec_of_opcode_trap {i : Instr} (h : i.opcode = 15#4) (s : State) :
    ∃ v, exec i s = .next (s.link.trapDispatch v) := by
  cases i with
  | trap v => exact ⟨v, rfl⟩
  | getc => exact ⟨0x20, rfl⟩
  | outChar => exact ⟨0x21, rfl⟩
  | puts => exact ⟨0x22, rfl⟩
  | inChar => exact ⟨0x23, rfl⟩
  | putsp => exact ⟨0x24, rfl⟩
  | halt => exact ⟨0x25, rfl⟩
  | _ => simp [Instr.opcode] at h

/-- Settles O41: the link is written before the dispatch, and the dispatch writes no register but R0. -/
theorem everyTrapLinksInR7 : Obligations.EveryTrapLinksInR7 := by
  intro i s h
  obtain ⟨v, e⟩ := exec_of_opcode_trap h s
  have linked : (s.link.trapDispatch v).reg .r7 = s.pc :=
    (s.link.trapDispatch_reg v (by decide)).trans s.link_reg_r7
  exact ⟨_, e, linked, s.link.trapDispatch_pc v, s.link.trapDispatch_cond v,
    keepsRegs_of_link fun r hr => s.link.trapDispatch_reg v hr, s.link.trapDispatch_stop v,
    s.link.trapDispatch_config v⟩

end Sys2Proof.Machine
end

section
/-! The memory and its reads (R50 to R58, R68, R211 of spec/20_memory.md and spec/70_reset_and_hazards.md): the canonical
form, what a `MemRead` returns and leaves, and the instructions that read. -/

namespace Sys2Proof.Machine

/-! ### The loader (R211) -/

theorem Memory.load_append (m : Memory) (ws vs : List (Word × Word)) : m.load (ws ++ vs) = (m.load ws).load vs := by
  induction ws generalizing m with
  | nil => rfl
  | cons w ws ih => exact ih (m.put w.1 w.2)

/-- Settles O8: the last write of the list is a store into what the others leave. -/
theorem loaderWritesArePlainWrites : Obligations.LoaderWritesArePlainWrites := by
  intro regs writes input stop config a v
  have last : Memory.load ⟨[]⟩ (writes ++ [(a, v)]) = (Memory.load ⟨[]⟩ writes).put a v :=
    Memory.load_append ⟨[]⟩ writes [(a, v)]
  have cell (b : Word) : (State.launch regs (writes ++ [(a, v)]) input stop config).cell b =
      if b = a then v else (State.launch regs writes input stop config).cell b :=
    (congrArg (Memory.get · b) last).trans (Memory.get_put _ a b v)
  exact ⟨by rw [cell, if_pos rfl], fun b hb => by rw [cell, if_neg hb], rfl⟩

/-! ### The canonical form (log 1) -/

theorem Memory.mem_of_lookup {l : List (Nat × Word)} {a : Nat} {v : Word} (h : Memory.lookup l a = v)
    (hv : v ≠ Memory.unlisted) : (a, v) ∈ l := by
  induction l with
  | nil => exact absurd h.symm hv
  | cons c l ih =>
    obtain ⟨b, w⟩ := c
    rw [Memory.lookup] at h
    split at h
    case isTrue hb => rw [hb, h]; exact List.mem_cons_self
    case isFalse => exact List.mem_cons_of_mem _ (ih h)

/-- The entries of a memory in canonical form are its non-zero cells. -/
theorem Memory.mem_cells_iff {m : Memory} (h : m.wf) (c : Nat × Word) :
    c ∈ m.cells ↔ c.1 < 65536 ∧ c.2 ≠ Memory.unlisted ∧ m.get (BitVec.ofNat 16 c.1) = c.2 := by
  obtain ⟨rising, entries⟩ := h
  constructor
  · intro hc
    obtain ⟨hlt, hne⟩ := entries c hc
    have address : (BitVec.ofNat 16 c.1).toNat = c.1 := Nat.mod_eq_of_lt hlt
    exact ⟨hlt, hne, by rw [Memory.get, address, Memory.lookup_of_mem rising hc]⟩
  · rintro ⟨hlt, hne, hget⟩
    have address : (BitVec.ofNat 16 c.1).toNat = c.1 := Nat.mod_eq_of_lt hlt
    rw [Memory.get, address] at hget
    exact Memory.mem_of_lookup hget hne

/-- Settles O34: both lists rise and have the same entries. -/
theorem canonicalMemoriesThatReadAlikeAreEqual : Obligations.CanonicalMemoriesThatReadAlikeAreEqual := by
  intro m k hm hk alike
  have entries (c : Nat × Word) : c ∈ m.cells ↔ c ∈ k.cells := by
    rw [Memory.mem_cells_iff hm, Memory.mem_cells_iff hk, alike]
  have irrefl : Std.Irrefl (fun c d : Nat × Word => c.1 < d.1) := ⟨fun c => lt_irrefl c.1⟩
  have antisymm : Std.Antisymm (fun c d : Nat × Word => c.1 < d.1) := ⟨fun c d h h' => absurd h' h.asymm⟩
  have cells : m.cells = k.cells := hm.1.eq_of_mem_iff hk.1 entries
  cases m; cases k; exact congrArg Memory.mk cells

/-! ### MemRead (R53, R55, R58) -/

section
variable {s t u : State} {a v : Word}

/-- Away from KBSR a read returns the cell and has no effect. -/
theorem State.memRead_of_ne (h : a ≠ s.config.kbsrAddr) : s.memRead a = (s.cell a, s) := by
  simp [State.memRead, s.touch_of_ne h]

/-- Only the cells and the input of the state after a read are spoken of. -/
theorem ReadEffect.of_keeps (h : ReadEffect s a v t) (cells : KeepsMemory t u) (input : u.input = t.input) :
    ReadEffect s a v u := by
  unfold ReadEffect at h ⊢
  simp only [cells _, input]
  exact h

/-- Every `MemRead` has the effect R53 gives it. -/
theorem State.memRead_effect (hc : s.config.wf) (a : Word) : ReadEffect s a (s.memRead a).1 (s.memRead a).2 := by
  unfold ReadEffect
  by_cases ha : a = s.config.kbsrAddr
  · subst ha
    rw [if_pos rfl, State.memRead_fst, State.memRead_snd, s.touch_kbsr]
    rcases s.polled_cases with ⟨c, rest, ask, e⟩ | ⟨rest, ask, e⟩ <;> rw [ask, e]
    · exact ⟨by simp [hc], by simp [hc], by simp, rfl, fun b hs hd => by simp [hs, hd]⟩
    · exact ⟨by simp, by simp, rfl, fun b hs => by simp [hs]⟩
  · rw [if_neg ha, State.memRead_of_ne ha]
    exact ⟨rfl, rfl, fun _ => rfl⟩

/-- A read changes nothing but the memory and the input. -/
theorem State.memRead_frame (s : State) (a : Word) :
    { (s.memRead a).2 with mem := s.mem, input := s.input } = s := by
  rw [State.memRead_snd]
  rcases s.touch_cases a with ⟨-, e⟩ | ⟨-, e⟩ <;> rw [e]
  rcases s.polled_cases with ⟨c, rest, -, e⟩ | ⟨rest, -, e⟩ <;> rw [e] <;> rfl

/-- A read of KBSR returns the answer of the input and never what the cell held (R53, R58). -/
theorem State.memRead_kbsr (hc : s.config.wf) :
    (s.memRead s.config.kbsrAddr).1 = if s.input.ask.1.isSome then 0x8000 else 0 := by
  rw [State.memRead_fst, s.touch_kbsr]
  rcases s.polled_cases with ⟨c, rest, ask, e⟩ | ⟨rest, ask, e⟩ <;> rw [e, ask]
  · simp [hc]
  · simp

end

/-- Settles O31: a `MemRead` is the poll or nothing, and a poll writes the two keyboard registers and the input alone. -/
theorem memoryReadPollsAtKbsrOnly : Obligations.MemoryReadPollsAtKbsrOnly :=
  fun s a hc => ⟨State.memRead_effect hc a, s.memRead_frame a⟩

/-- Settles O33: a read of KBSR depends on the input and not on the cell, a read of KBDR is a plain one. -/
theorem storeToKbsrIsNeverReadBack : Obligations.StoreToKbsrIsNeverReadBack := by
  intro s v hc
  have value := State.memRead_kbsr hc
  have value_after_store : ((s.memWrite s.config.kbsrAddr v).memRead s.config.kbsrAddr).1 = _ :=
    State.memRead_kbsr (s := s.memWrite s.config.kbsrAddr v) hc
  have data : (s.memWrite s.config.kbdrAddr v).memRead s.config.kbdrAddr =
      ((s.memWrite s.config.kbdrAddr v).cell s.config.kbdrAddr, s.memWrite s.config.kbdrAddr v) :=
    State.memRead_of_ne hc.symm
  refine ⟨value_after_store.trans value.symm, ?_, by rw [data]; simp, rfl, rfl⟩
  rw [value]
  split
  · exact .inl rfl
  · exact .inr rfl

/-! ### The instructions that read (R140 to R143, R146) -/

/-- How a load ends: one read, its value in the destination register with the flags, and no other change. -/
theorem State.loadInto_effect {s : State} (hc : s.config.wf) (d : Reg) (ea : Word) :
    ReadEffect s ea ((s.loadInto d ea).reg d) (s.loadInto d ea) ∧
      FlagsFor ((s.loadInto d ea).reg d) (s.loadInto d ea).cond ∧ KeepsRegs [d] s (s.loadInto d ea) ∧
      (s.loadInto d ea).pc = s.pc ∧ (s.loadInto d ea).output = s.output ∧ KeepsControl s (s.loadInto d ea) := by
  obtain ⟨written, flags, others, -, cells, ⟨input, -⟩, -⟩ :=
    (s.memRead ea).2.writeDest_writesOnlyDest d (s.memRead ea).1
  have value : (s.loadInto d ea).reg d = (s.memRead ea).1 := written
  have read : ReadEffect s ea (s.memRead ea).1 (s.loadInto d ea) := (State.memRead_effect hc ea).of_keeps cells input
  rw [value]
  exact ⟨read, flags, fun r hr => (others r hr).trans (s.touch_reg ea r), by simp, by simp, by simp [KeepsControl]⟩

/-- Settles O24: LD is a load at the incremented pc plus the offset. -/
theorem loadResult : Obligations.LoadResult := fun d pcOffset9 s hc =>
  ⟨s.loadInto d (s.pc + sext pcOffset9), rfl, State.loadInto_effect hc d _⟩

/-- Settles O26: LDR is a load at BaseR plus the offset. -/
theorem loadBaseOffsetResult : Obligations.LoadBaseOffsetResult := fun d base offset6 s hc =>
  ⟨s.loadInto d (s.reg base + sext offset6), rfl, State.loadInto_effect hc d _⟩

/-- Settles O25: LDI is the read of the pointer and then, in the state it leaves, a load at the pointer. -/
theorem loadIndirectResult : Obligations.LoadIndirectResult := by
  intro d pcOffset9 s hc
  let p := s.memRead (s.pc + sext pcOffset9)
  have config : p.2.config = s.config := s.touch_config _
  obtain ⟨read, flags, others, -, -, -⟩ := State.loadInto_effect (s := p.2) (config ▸ hc) d p.1
  exact ⟨p.2.loadInto d p.1, p.2, p.1, rfl, State.memRead_effect hc _, config, read, flags,
    fun r hr => (others r hr).trans (s.touch_reg _ r), by simp [p], by simp [p], by simp [p, KeepsControl]⟩

/-- Settles O29: STI is the read of the pointer and then, in the state it leaves, a store at the pointer. -/
theorem storeIndirectResult : Obligations.StoreIndirectResult := by
  intro r pcOffset9 s hc
  let p := s.memRead (s.pc + sext pcOffset9)
  refine ⟨p.2.memWrite p.1 (s.reg r), rfl, ?_, fun q _ => s.touch_reg _ q, by simp [p], by simp [p], by simp [p],
    by simp [p, KeepsControl]⟩
  rintro a u e
  obtain ⟨rfl, rfl⟩ : p.1 = a ∧ p.2 = u := Prod.ext_iff.mp e
  exact ⟨State.memRead_effect hc _, State.memWrite_storesOnly _ _ _⟩

end Sys2Proof.Machine
end

section
/-! The cycle (R68, R111, R116, R190, R197 of spec/40_instruction_cycle.md): what a step of a running core fetches and runs, and
what one does that holds for input. -/

namespace Sys2Proof.Machine

/-! ### Between instructions (R111) -/

section
variable {s : State}

theorem State.setActivity_of_eq {a : Activity} (h : s.activity = a) : s.setActivity a = s := by
  subst h; rfl

/-- Away from KBSR the fetch is a plain read of the cell at the pc. -/
theorem step_of_fetch_of_ne (hr : s.run = .running) (ha : s.activity = .idle) (hs : s.stop.raised = false)
    (hk : s.pc ≠ s.config.kbsrAddr) :
    step s = exec (decode (s.cell s.pc)) ((s.setStop s.stop.tick).setPc (s.pc + 1)) := by
  have plain : (s.setStop s.stop.tick).memRead s.pc = (s.cell s.pc, s.setStop s.stop.tick) := State.memRead_of_ne hk
  rw [step_of_fetch hr ha hs, plain]

end

/-- Settles O36: a core between instructions fetches, from a plain cell or from KBSR, or finds the stop request. -/
theorem stepRunsTheDecodedInstruction : Obligations.StepRunsTheDecodedInstruction := by
  intro s hr ha
  refine ⟨step_of_fetch hr ha, step_of_fetch_of_ne hr ha, fun hs => ?_⟩
  have idle : s.cancel = s.setRun .cancelled := State.setActivity_of_eq (s := s.setRun .cancelled) ha
  rw [step_of_raised hr (.inl ha) hs, idle]

/-- Settles O35: with offset 0 the store goes to the cell that the next fetch reads. -/
theorem storeIsSeenByTheNextFetch : Obligations.StoreIsSeenByTheNextFetch := by
  intro r s t h hr ha hs hk
  obtain rfl : s.memWrite (s.pc + 0) (s.reg r) = t := Host.Outcome.next.inj h
  have stored : (s.memWrite (s.pc + 0) (s.reg r)).cell s.pc = s.reg r := by simp
  have next := step_of_fetch_of_ne (s := s.memWrite (s.pc + 0) (s.reg r)) hr ha hs hk
  rw [next]
  exact congrArg (fun w => exec (decode w) _) stored

/-- The branch that never branches does nothing (R29, R116). -/
theorem exec_decode_zero (s : State) : exec (decode 0x0000) s = .next s := by
  have word : decode 0x0000 = .br false false false 0 := by decide
  have never : ¬ branchTaken false false false s.cond = true := by cases s.cond <;> decide
  rw [word, exec_br_of_not_taken never]

/-- Settles O37: the poll returns a word of opcode 8 or the zero word. -/
theorem fetchAtKbsrRunsWhatThePollReturns : Obligations.FetchAtKbsrRunsWhatThePollReturns := by
  intro s hr ha hs hc hpc
  have rti : decode 0x8000 = .rti := by decide
  have read := State.memRead_effect (s := s.setStop s.stop.tick) hc s.pc
  rw [ReadEffect, State.setStop_config, if_pos hpc] at read
  rw [step_of_fetch hr ha hs]
  constructor
  · intro c rest ask
    rw [State.setStop_input, ask] at read
    obtain ⟨value, status, data, input, -⟩ := read
    rw [value, rti]
    exact ⟨_, rfl, rfl, input, status, data, fun r _ => by simp, by simp⟩
  · intro rest ask
    rw [State.setStop_input, ask] at read
    obtain ⟨value, status, input, others⟩ := read
    rw [value, exec_decode_zero]
    exact ⟨_, rfl, by simpa using hr, rfl, input, status, others, fun r _ => by simp, by simp, by simp⟩

/-! ### Holding for input (R36, R161, R164, R190, R197) -/

section
variable {s : State} {c : Byte} {rest : InputChannel}

theorem State.tryGetc_of_some (h : s.input.ask = (some c, rest)) :
    s.tryGetc = ((s.setInput rest).setReg .r0 (zext16 c)).setActivity .idle := by
  simp [State.tryGetc, h]

theorem State.tryGetc_of_none (h : s.input.ask = (none, rest)) :
    s.tryGetc = (s.setInput rest).setActivity .getc := by
  simp [State.tryGetc, h]

theorem State.tryIn_of_some (h : s.input.ask = (some c, rest)) :
    s.tryIn = (((s.setInput rest).emit [c]).setReg .r0 (zext16 c)).setActivity .idle := by
  simp [State.tryIn, h]

theorem State.tryIn_of_none (h : s.input.ask = (none, rest)) :
    s.tryIn = (s.setInput rest).setActivity .inChar := by
  simp [State.tryIn, h]

/-- A write of one register leaves the others alone. -/
theorem State.setReg_keepsRegs (s : State) (r : Reg) (v : Word) : KeepsRegs [r] s (s.setReg r v) := fun q hq => by
  rw [List.mem_singleton] at hq
  simp [hq]

end

/-- Settles O40: a raised stop request cancels either hold; otherwise the step is GETC's or IN's question, which a character
ends and nothing else does. -/
theorem inputHoldEndsByACharacterOrTheStopRequest : Obligations.InputHoldEndsByACharacterOrTheStopRequest := by
  intro s hr ha
  by_cases hs : s.stop.raised = true
  · exact ⟨s.cancel, step_of_raised hr (.inr ha) hs, rfl, rfl, fun _ => rfl, rfl, rfl,
      fun _ => ⟨rfl, fun _ _ => rfl, rfl, rfl⟩, fun hn => absurd hs (by simp [hn]), fun hn => absurd hs (by simp [hn])⟩
  · rcases ha with ha | ha
    · refine ⟨s.sampled.tryGetc, by rw [step_of_getc hr ha, if_neg hs], by simp, by simp,
        fun a => congrArg (Memory.get · a) s.sampled.tryGetc_mem, by simp, by simp, fun h => absurd h hs,
        fun _ c rest ask => ?_, fun _ rest ask => ?_⟩
      · rw [State.tryGetc_of_some (s := s.sampled) ask]
        exact ⟨hr, rfl, rfl, rfl, State.setReg_keepsRegs _ .r0 _, fun _ => rfl, fun h => by simp [ha] at h⟩
      · rw [State.tryGetc_of_none (s := s.sampled) ask]
        exact ⟨hr, ha.symm, rfl, fun _ _ => rfl, rfl⟩
    · refine ⟨s.sampled.tryIn, by rw [step_of_inChar hr ha, if_neg hs], by simp, by simp,
        fun a => congrArg (Memory.get · a) s.sampled.tryIn_mem, by simp, by simp, fun h => absurd h hs,
        fun _ c rest ask => ?_, fun _ rest ask => ?_⟩
      · rw [State.tryIn_of_some (s := s.sampled) ask]
        exact ⟨hr, rfl, rfl, rfl, State.setReg_keepsRegs _ .r0 _, fun h => by simp [ha] at h, fun _ => rfl⟩
      · rw [State.tryIn_of_none (s := s.sampled) ask]
        exact ⟨hr, ha.symm, rfl, fun _ _ => rfl, rfl⟩

end Sys2Proof.Machine
end

section
/-! PUTS and PUTSP (R163, R165 of spec/44_trap.md): no write of a register or a parameter that the loop does not look at
changes what it does, a string away from KBSR, and a memory in which no read gives zero. -/

namespace Sys2Proof.Machine

/-! ### Updates the string loop does not see -/

/-- An update of the state that commutes with a read, the output and the activity commutes with the string loop. -/
theorem stringLoop_commutes {f : State → State} (read : ∀ s a, (f s).memRead a = ((s.memRead a).1, f (s.memRead a).2))
    (emit : ∀ s bs, (f s).emit bs = f (s.emit bs)) (activity : ∀ s a, (f s).setActivity a = f (s.setActivity a))
    (mode : StringMode) (n : Nat) (a : Word) (s : State) :
    stringLoop mode n a (f s) = f (stringLoop mode n a s) := by
  induction n generalizing a s with
  | zero => exact activity s _
  | succ n ih =>
    have value : ((f s).memRead a).1 = (s.memRead a).1 := by rw [read]
    by_cases hz : (s.memRead a).1 = 0
    · rw [stringLoop_stop _ mode n a (value.trans hz), stringLoop_stop s mode n a hz, read]
      exact activity _ _
    · rw [stringLoop_more _ mode n a (value ▸ hz), stringLoop_more s mode n a hz, read, emit]
      exact ih _ _

theorem State.polled_setReg (s : State) (r : Reg) (v : Word) : (s.setReg r v).polled = s.polled.setReg r v := by
  unfold State.polled
  rw [State.setReg_input]
  split <;> rfl

theorem State.memRead_setReg (s : State) (r : Reg) (v a : Word) :
    (s.setReg r v).memRead a = ((s.memRead a).1, (s.memRead a).2.setReg r v) := by
  have touch : (s.setReg r v).touch a = (s.touch a).setReg r v := by
    unfold State.touch
    rw [State.setReg_config, State.polled_setReg]
    split <;> rfl
  rw [State.memRead, touch]
  rfl

theorem stringLoop_setReg (mode : StringMode) (n : Nat) (a : Word) (s : State) (r : Reg) (v : Word) :
    stringLoop mode n a (s.setReg r v) = (stringLoop mode n a s).setReg r v :=
  stringLoop_commutes (f := (State.setReg · r v)) (fun s a => s.memRead_setReg r v a) (fun _ _ => rfl)
    (fun _ _ => rfl) mode n a s

/-- PUTS and PUTSP: the loop from the cell R0 points at, and the link, which the loop does not see. -/
theorem exec_string (mode : StringMode) (s : State) :
    exec mode.instr s = .next ((stringLoop mode s.stringReads (s.reg .r0) s).setReg .r7 s.pc) := by
  have service : exec mode.instr s = .next (s.link.serviceString mode) := by cases mode <;> rfl
  rw [service]
  exact congrArg Host.Outcome.next (stringLoop_setReg mode s.stringReads (s.reg .r0) s .r7 s.pc)

/-! ### A string that ends, and one that does not (R112, R163) -/

/-- The reads of a run do not write the output. -/
theorem StringRun.output {mode : StringMode} {n : Nat} {a : Word} {s u : State} {bs : List Byte}
    (h : StringRun mode n a s bs u) : u.output = s.output := by
  induction h with
  | @stop a s _ => exact s.touch_output a
  | @more _ a s _ _ _ _ ih => exact ih.trans (s.touch_output a)

/-- Settles O48: the loop of the step does what the run of reads says, or there is no run and it stands where it
began. -/
theorem stringRoutinesReadThroughMemRead : Obligations.StringRoutinesReadThroughMemRead := by
  intro mode s idle
  let t := (stringLoop mode s.stringReads (s.reg .r0) s).setReg .r7 s.pc
  have step : exec mode.instr s = .next t := exec_string mode s
  have link : t.reg .r7 = s.pc := by simp [t]
  have others : KeepsRegs [.r7] s t := fun r hr => by
    have hr : r ≠ .r7 := by simpa using hr
    simp [t, hr]
  constructor
  · intro u n bs run
    have loop := stringLoop_of_run s mode s.stringReads (s.reg .r0) run run.lt_stringReads
    have done : t.activity = s.activity := by simp [t, loop, idle]
    exact ⟨t, step, by simp [t, loop, run.output], by simp [t, loop], by simp [t, loop], link, others, by simp [t],
      by simp [t], by simp [t], by simp [t], done, by simp [t], by simp [t]⟩
  · intro endless
    have there : t.activity = mode.activity (s.reg .r0) := by
      rcases stringLoop_stringReads_cases s mode (s.reg .r0) with ⟨n, bs, u, run, -⟩ | ⟨-, h⟩
      · exact absurd run (endless u n bs)
      · exact h
    exact ⟨t, step, by simp [t], there, link, others, by simp [t], by simp [t], by simp [t], by simp [t], by simp [t]⟩

/-! ### A string away from KBSR -/

/-- The bytes a routine emits for the `k` cells from `a`. -/
def stringBytes (mode : StringMode) (s : State) (k : Nat) (a : Word) : List Byte :=
  (List.range k).flatMap (fun j => mode.bytes (s.cell (a + BitVec.ofNat 16 j)))

theorem word_add_succ (a : Word) (j : Nat) : a + BitVec.ofNat 16 (j + 1) = a + 1 + BitVec.ofNat 16 j := by
  rw [Nat.add_comm j 1, BitVec.ofNat_add]
  exact (BitVec.add_assoc _ _ _).symm

theorem stringBytes_succ (mode : StringMode) (s : State) (k : Nat) (a : Word) :
    stringBytes mode s (k + 1) a = mode.bytes (s.cell a) ++ stringBytes mode s k (a + 1) := by
  have rest : (fun j => mode.bytes (s.cell (a + BitVec.ofNat 16 (Nat.succ j)))) =
      fun j => mode.bytes (s.cell (a + 1 + BitVec.ofNat 16 j)) := funext fun j => by rw [Nat.succ_eq_add_one, word_add_succ]
  have first : a + BitVec.ofNat 16 0 = a := BitVec.add_zero a
  rw [stringBytes, List.range_succ_eq_map, List.flatMap_cons, List.flatMap_map, first, rest]
  rfl

/-- A zero-terminated string away from KBSR is a run of reads that leave the state alone. -/
theorem StringRun.plain (mode : StringMode) (s : State) {k : Nat} {a : Word}
    (cells : ∀ j, j < k → s.cell (a + BitVec.ofNat 16 j) ≠ 0)
    (away : ∀ j, j ≤ k → a + BitVec.ofNat 16 j ≠ s.config.kbsrAddr)
    (zero : s.cell (a + BitVec.ofNat 16 k) = 0) : StringRun mode k a s (stringBytes mode s k a) s := by
  induction k generalizing a with
  | zero =>
    have plain : s.memRead a = (s.cell a, s) := State.memRead_of_ne (by simpa using away 0 le_rfl)
    have stop := StringRun.stop (mode := mode) (a := a) (s := s) (by simpa [plain] using zero)
    rwa [plain] at stop
  | succ k ih =>
    have plain : s.memRead a = (s.cell a, s) := State.memRead_of_ne (by simpa using away 0 (by omega))
    have first : (s.memRead a).1 ≠ 0 := by rw [plain]; simpa using cells 0 (by omega)
    have rest : StringRun mode k (a + 1) (s.memRead a).2 (stringBytes mode s k (a + 1)) s := by
      rw [plain]
      exact ih (fun j hj => word_add_succ a j ▸ cells (j + 1) (by omega))
        (fun j hj => word_add_succ a j ▸ away (j + 1) (by omega)) (word_add_succ a k ▸ zero)
    have run := StringRun.more first rest
    rwa [plain, ← stringBytes_succ] at run

/-- Settles O47: the string is a run of reads, and the bytes of its cells are those the spec names. -/
theorem plainStringsAreWrittenWhole : Obligations.PlainStringsAreWrittenWhole := by
  intro s k _ idle cells away zero
  have written (mode : StringMode) : ∃ t, exec mode.instr s = .next t ∧
      t.output = s.output ++ stringBytes mode s k (s.reg .r0) ∧ t.reg .r7 = s.pc ∧ KeepsRegs [.r7] s t ∧
      t.cond = s.cond ∧ t.pc = s.pc ∧ KeepsMemory s t ∧ t.input = s.input ∧ KeepsControl s t := by
    obtain ⟨ends, -⟩ := stringRoutinesReadThroughMemRead mode s idle
    obtain ⟨t, step, output, mem, input, link, others, cond, pc, control⟩ :=
      ends s k _ (StringRun.plain mode s cells away zero)
    exact ⟨t, step, output, link, others, cond, pc, fun a => congrArg (Memory.get · a) mem, input, control⟩
  have low : stringBytes .puts s k (s.reg .r0) = (List.range k).map
      (fun j => (s.cell (s.reg .r0 + BitVec.ofNat 16 j)).extractLsb' 0 8) := List.flatMap_pure_eq_map _ _
  exact ⟨low ▸ written .puts, written .putsp⟩

/-! ### A memory in which no read gives zero (R163) -/

/-- The answer before which the channel has only others is one that ends a string. -/
theorem InputChannel.endsString_answer {c : InputChannel} {k : Nat} (h : c.firstEnding = some k) :
    endsString (c.answer k) = true := by
  induction k generalizing c with
  | zero =>
    cases he : endsString c.ask.1 with
    | true => exact he
    | false => simp [InputChannel.firstEnding_ask c, he] at h
  | succ k ih =>
    cases he : endsString c.ask.1 with
    | true => simp [InputChannel.firstEnding_ask c, he] at h
    | false => exact ih (c := c.ask.2) (by simpa [InputChannel.firstEnding_ask c, he] using h)

section
variable {s : State}

theorem NoZeroRead.not_endsString (h : NoZeroRead s) (k : Nat) : endsString (s.input.answer k) = false := by
  obtain ⟨c, hc, hz⟩ := h.polls k
  simpa [hc, endsString] using hz

/-- Where no poll ends a string a step makes one round of reads. -/
theorem NoZeroRead.stringReads_eq (h : NoZeroRead s) : s.stringReads = 65536 := by
  cases hk : s.input.firstEnding with
  | none => exact s.stringReads_none hk
  | some k => exact absurd (InputChannel.endsString_answer hk) (by simp [h.not_endsString k])

theorem NoZeroRead.memRead_ne_zero (h : NoZeroRead s) (a : Word) : (s.memRead a).1 ≠ 0 := by
  by_cases ha : a = s.config.kbsrAddr
  · subst ha
    exact (s.touch_kbsr_of_more (h.not_endsString 0)).2.1
  · rw [State.memRead_of_ne ha]
    exact h.cells a ha

/-- Such a memory stays one under reads. -/
theorem NoZeroRead.after_memRead (h : NoZeroRead s) (a : Word) : NoZeroRead (s.memRead a).2 := by
  by_cases ha : a = s.config.kbsrAddr
  · subst ha
    obtain ⟨input, -, cells⟩ := s.touch_kbsr_of_more (h.not_endsString 0)
    refine ⟨fun b hb => ?_, fun k => ?_⟩
    · have hb : b ≠ s.config.kbsrAddr := by simpa using hb
      exact cells b hb (h.cells b hb)
    · rw [State.memRead_snd, input]
      exact h.polls (k + 1)
  · rw [State.memRead_of_ne ha]
    exact h

theorem StringMode.bytes_length (mode : StringMode) (w : Word) :
    1 ≤ (mode.bytes w).length ∧ (mode.bytes w).length ≤ 2 ∧ (mode = .puts → (mode.bytes w).length = 1) := by
  cases mode with
  | puts => simp [StringMode.bytes]
  | putsp =>
    rw [StringMode.bytes]
    split <;> simp

/-- The loop over such a memory makes all its reads, and writes one or two bytes for each. -/
theorem NoZeroRead.stringLoop_endless (h : NoZeroRead s) (mode : StringMode) (n : Nat) (a : Word) :
    (stringLoop mode n a s).activity = mode.activity (a + BitVec.ofNat 16 n) ∧
      NoZeroRead (stringLoop mode n a s) ∧ ∃ bs, (stringLoop mode n a s).output = s.output ++ bs ∧
        n ≤ bs.length ∧ bs.length ≤ 2 * n ∧ (mode = .puts → bs.length = n) := by
  induction n generalizing a s with
  | zero => exact ⟨by simp [stringLoop], ⟨h.cells, h.polls⟩, [], by simp [stringLoop]⟩
  | succ n ih =>
    have next : NoZeroRead ((s.memRead a).2.emit (mode.bytes (s.memRead a).1)) :=
      ⟨(h.after_memRead a).cells, (h.after_memRead a).polls⟩
    obtain ⟨activity, still, bs, output, low, high, one⟩ := ih next (a + 1)
    obtain ⟨low', high', one'⟩ := mode.bytes_length (s.memRead a).1
    rw [stringLoop_more s mode n a (h.memRead_ne_zero a)]
    refine ⟨by rw [activity, word_add_succ], still, mode.bytes (s.memRead a).1 ++ bs, ?_, ?_, ?_, ?_⟩
    · rw [output]; simp
    · rw [List.length_append]; omega
    · rw [List.length_append]; omega
    · intro puts
      rw [List.length_append, one puts, one' puts, Nat.add_comm]

/-- One round of the routine: it stands where it began, over such a memory, with the bytes of a round written. -/
theorem NoZeroRead.round (h : NoZeroRead s) (mode : StringMode) (a : Word) :
    (stringLoop mode s.stringReads a s).activity = mode.activity a ∧
      NoZeroRead (stringLoop mode s.stringReads a s) ∧
      ∃ bs, (stringLoop mode s.stringReads a s).output = s.output ++ bs ∧
        65536 ≤ bs.length ∧ bs.length ≤ 131072 ∧ (mode = .puts → bs.length = 65536) := by
  obtain ⟨activity, still, bytes⟩ := h.stringLoop_endless mode s.stringReads a
  rw [stringReads_round] at activity
  rw [h.stringReads_eq] at bytes ⊢
  exact ⟨h.stringReads_eq ▸ activity, h.stringReads_eq ▸ still, bytes⟩

end

/-- A core inside a string routine, at the cell `a`, over a memory in which no read gives zero. -/
def InsideEndless (mode : StringMode) (a : Word) (s : State) : Prop :=
  s.run = .running ∧ s.activity = mode.activity a ∧ NoZeroRead s

/-- A step of such a core is a round, after which it is one still. -/
theorem InsideEndless.step_round {mode : StringMode} {a : Word} {s : State} (h : InsideEndless mode a s) :
    ∃ t bs, step s = .next t ∧ InsideEndless mode a t ∧ t.output = s.output ++ bs ∧ 65536 ≤ bs.length ∧
      bs.length ≤ 131072 ∧ (mode = .puts → bs.length = 65536) := by
  obtain ⟨running, inside, noZero⟩ := h
  obtain ⟨activity, still, bs, bytes⟩ := noZero.round mode a
  exact ⟨_, bs, step_of_string running inside, ⟨by simpa using running, activity, still⟩, bytes⟩

/-- Settles O49: being inside such a routine is kept by every step, and the TRAP leads into it. -/
theorem putsWithNoZeroCellNeverEnds : Obligations.PutsWithNoZeroCellNeverEnds := by
  constructor
  · intro mode s a running inside _ noZero u hu
    have kept : InsideEndless mode a u := hu.invariant ⟨running, inside, noZero⟩ fun t v ht hv => by
      obtain ⟨w, -, hw, after, -⟩ := ht.step_round
      obtain rfl : w = v := Host.Outcome.next.inj (hw.symm.trans hv)
      exact after
    obtain ⟨t, bs, step, -, bytes⟩ := kept.step_round
    obtain ⟨running, inside, noZero⟩ := kept
    exact ⟨running, inside, noZero, t, bs, step, bytes⟩
  · intro mode s running idle unraised _ noZero away word
    let u := (s.setStop s.stop.tick).setPc (s.pc + 1)
    have fetched : step s = exec mode.instr u := by
      rw [step_of_fetch_of_ne running idle unraised away, word]
    have ready : NoZeroRead u := ⟨noZero.cells, noZero.polls⟩
    obtain ⟨activity, still, bs, bytes⟩ := ready.round mode (u.reg .r0)
    exact ⟨_, bs, fetched.trans (exec_string mode u), by simpa [u] using running, activity, ⟨still.cells, still.polls⟩,
      by simp [u], by simp [u], bytes⟩

end Sys2Proof.Machine
end

section
/-! RTI, RES and the policy (R180 to R183, R186 of spec/45_unimplemented.md and spec/60_exceptions.md): what each does under
each policy, and that nothing else looks at it. -/

namespace Sys2Proof.Machine

/-! ### RTI, RES and taking a fault -/

/-- Settles O53: the record holds the pc minus one. -/
theorem faultEntryWritesTheRecordOnly : Obligations.FaultEntryWritesTheRecordOnly :=
  fun s kind value => ⟨rfl, rfl, (s.raise_pc_eq_addr_add_one kind value).symm, rfl, rfl⟩

/-- Settles O51: both opcodes are one operation, with their own number. -/
theorem unimplementedOpcodesFollowThePolicy : Obligations.UnimplementedOpcodesFollowThePolicy := by
  intro i number hi s
  have same : exec i s = .next (s.unimplemented number) := by
    rcases hi with ⟨rfl, rfl⟩ | ⟨rfl, rfl⟩ <;> rfl
  refine ⟨s.unimplemented number, same, ?_⟩
  rcases s.unimplemented_cases number with ⟨policy, e⟩ | ⟨policy, e⟩ <;> rw [e]
  · exact ⟨fun _ => ⟨rfl, rfl, rfl, rfl, fun _ _ => rfl, rfl, rfl, fun _ => rfl, ⟨rfl, rfl⟩, rfl, rfl, rfl⟩,
      fun nop => absurd (policy.symm.trans nop) (by decide)⟩
  · exact ⟨fun fault => absurd (policy.symm.trans fault) (by decide), fun _ => rfl⟩

/-! ### No other operation looks at the policy (R183)

Each operation is run on a state with another policy: it does the same and keeps that policy. -/

section
variable (s : State) (p : UnimplPolicy)

theorem State.polled_withPolicy : (s.withPolicy p).polled = s.polled.withPolicy p := by
  have input : (s.withPolicy p).input = s.input := rfl
  unfold State.polled
  rw [input]
  split <;> rfl

theorem State.memRead_withPolicy (a : Word) :
    (s.withPolicy p).memRead a = ((s.memRead a).1, (s.memRead a).2.withPolicy p) := by
  have kbsr : (s.withPolicy p).config.kbsrAddr = s.config.kbsrAddr := rfl
  have touch : (s.withPolicy p).touch a = (s.touch a).withPolicy p := by
    unfold State.touch
    rw [kbsr, State.polled_withPolicy]
    split <;> rfl
  rw [State.memRead, touch]
  rfl

theorem State.loadInto_withPolicy (d : Reg) (ea : Word) :
    (s.withPolicy p).loadInto d ea = (s.loadInto d ea).withPolicy p := by
  rw [State.loadInto, State.memRead_withPolicy]
  rfl

theorem State.tryGetc_withPolicy : (s.withPolicy p).tryGetc = s.tryGetc.withPolicy p := by
  have input : (s.withPolicy p).input = s.input := rfl
  unfold State.tryGetc
  rw [input]
  split <;> rfl

theorem State.tryIn_withPolicy : (s.withPolicy p).tryIn = s.tryIn.withPolicy p := by
  have input : (s.withPolicy p).input = s.input := rfl
  unfold State.tryIn
  rw [input]
  split <;> rfl

theorem stringLoop_withPolicy (mode : StringMode) (n : Nat) (a : Word) :
    stringLoop mode n a (s.withPolicy p) = (stringLoop mode n a s).withPolicy p :=
  stringLoop_commutes (f := State.withPolicy p) (fun s a => s.memRead_withPolicy p a) (fun _ _ => rfl)
    (fun _ _ => rfl) mode n a s

theorem State.serviceString_withPolicy (mode : StringMode) :
    (s.withPolicy p).serviceString mode = (s.serviceString mode).withPolicy p :=
  stringLoop_withPolicy s p mode s.stringReads (s.reg .r0)

theorem State.serviceIn_withPolicy : (s.withPolicy p).serviceIn = s.serviceIn.withPolicy p :=
  (s.emit s.config.inPrompt).tryIn_withPolicy p

theorem State.trapDispatch_withPolicy (v : Byte) :
    (s.withPolicy p).trapDispatch v = (s.trapDispatch v).withPolicy p := by
  simp only [State.trapDispatch, State.tryGetc_withPolicy, State.serviceString_withPolicy,
    State.serviceIn_withPolicy]
  split_ifs <;> rfl

/-- Every instruction but RTI and RES does the same under every policy. -/
theorem exec_withPolicy {i : Instr} (hrti : i ≠ .rti) (hres : i ≠ .res) :
    ∃ t, exec i s = .next t ∧ exec i (s.withPolicy p) = .next (t.withPolicy p) := by
  cases i with
  | rti => exact absurd rfl hrti
  | res => exact absurd rfl hres
  | br n z q off =>
    by_cases taken : branchTaken n z q s.cond = true
    · exact ⟨_, exec_br_of_taken taken off, exec_br_of_taken (s := s.withPolicy p) taken off⟩
    · exact ⟨_, exec_br_of_not_taken taken off, exec_br_of_not_taken (s := s.withPolicy p) taken off⟩
  | ld d off => exact ⟨_, rfl, congrArg Host.Outcome.next (s.loadInto_withPolicy p d (s.pc + off))⟩
  | ldr d base off => exact ⟨_, rfl, congrArg Host.Outcome.next (s.loadInto_withPolicy p d (s.reg base + off))⟩
  | ldi d off =>
    refine ⟨_, rfl, ?_⟩
    show execLdi d off (s.withPolicy p) = _
    rw [execLdi, State.pointer, State.memRead_withPolicy, State.loadInto_withPolicy]
    rfl
  | sti r off =>
    refine ⟨_, rfl, ?_⟩
    show execSti r off (s.withPolicy p) = _
    rw [execSti, State.pointer, State.memRead_withPolicy]
    rfl
  | trap v => exact ⟨_, rfl, congrArg Host.Outcome.next (s.link.trapDispatch_withPolicy p v)⟩
  | getc => exact ⟨_, rfl, congrArg Host.Outcome.next (s.link.tryGetc_withPolicy p)⟩
  | inChar => exact ⟨_, rfl, congrArg Host.Outcome.next (s.link.serviceIn_withPolicy p)⟩
  | puts => exact ⟨_, rfl, congrArg Host.Outcome.next (s.link.serviceString_withPolicy p .puts)⟩
  | putsp => exact ⟨_, rfl, congrArg Host.Outcome.next (s.link.serviceString_withPolicy p .putsp)⟩
  | addReg | addImm | andReg | andImm | notReg | jmp | jsr | jsrr | lea | st | str | outChar | halt =>
    exact ⟨_, rfl, rfl⟩

end

/-- Settles O52: by the kind of step, each of which is the same kind under the other policy. -/
theorem policyMattersToRtiAndResOnly : Obligations.PolicyMattersToRtiAndResOnly := by
  intro s t p ht proviso
  cases step_kind ht with
  | ended h => exact step_of_ended (s := s.withPolicy p) h
  | cancel hr ha hs => exact step_of_raised (s := s.withPolicy p) hr ha hs
  | whole hr ha hs he =>
    obtain ⟨hrti, hres⟩ := proviso hr ha hs
    have read := (s.setStop s.stop.tick).memRead_withPolicy p s.pc
    obtain ⟨u, hu, hp⟩ := exec_withPolicy _ p hrti hres
    obtain rfl : u = t := Host.Outcome.next.inj (hu.symm.trans he)
    calc step (s.withPolicy p)
      _ = exec (decode (((s.setStop s.stop.tick).withPolicy p).memRead s.pc).1)
            ((((s.setStop s.stop.tick).withPolicy p).memRead s.pc).2.setPc (s.pc + 1)) :=
          step_of_fetch (s := s.withPolicy p) hr ha hs
      _ = .next (u.withPolicy p) := by rw [read]; exact hp
  | getc hr ha hs =>
    rw [step_of_getc (s := s.withPolicy p) hr ha]
    exact (congrArg Host.Outcome.next (if_neg (Bool.eq_false_iff.mp hs))).trans
      (congrArg Host.Outcome.next (s.sampled.tryGetc_withPolicy p))
  | inChar hr ha hs =>
    rw [step_of_inChar (s := s.withPolicy p) hr ha]
    exact (congrArg Host.Outcome.next (if_neg (Bool.eq_false_iff.mp hs))).trans
      (congrArg Host.Outcome.next (s.sampled.tryIn_withPolicy p))
  | @string mode a hr ha =>
    rw [step_of_string (s := s.withPolicy p) hr ha]
    exact congrArg Host.Outcome.next (stringLoop_withPolicy s p mode s.stringReads a)

end Sys2Proof.Machine
end

section
/-! The trap services one by one (R160 to R162, R164, R166, R167 of spec/44_trap.md). -/

namespace Sys2Proof.Machine

/-- A TRAP does what the instruction its vector decodes to does (R160, log 17). -/
theorem exec_decodeTrap (s : State) (v : Byte) : exec (decodeTrap v) s = exec (.trap v) s := by
  rcases decodeTrap_cases v with ⟨rfl, e⟩ | ⟨rfl, e⟩ | ⟨rfl, e⟩ | ⟨rfl, e⟩ | ⟨rfl, e⟩ | ⟨rfl, e⟩ | ⟨-, e⟩ <;> rw [e] <;>
    rfl

/-- Settles O42: the six vectors are dispatched to the services of the six constructors, and the decoder reads the vector
from bits [7:0]. -/
theorem trapVectorSelectsTheService : Obligations.TrapVectorSelectsTheService := by
  refine ⟨fun s => ⟨rfl, rfl, rfl, rfl, rfl, rfl⟩, fun w h s => ?_⟩
  rw [decode_trap h]
  exact exec_decodeTrap s (fieldVect w)

/-- The dispatch of a vector that is not served (R167). -/
theorem State.trapDispatch_of_unserved (s : State) {v : Byte} (h : v.toNat < 0x20 ∨ 0x25 < v.toNat) :
    s.trapDispatch v = s.raise .unknownTrapVector v := by
  rcases s.trapDispatch_cases v with ⟨rfl, -⟩ | ⟨rfl, -⟩ | ⟨rfl, -⟩ | ⟨rfl, -⟩ | ⟨rfl, -⟩ | ⟨rfl, -⟩ | ⟨-, e⟩
  case inr.inr.inr.inr.inr.inr => exact e
  all_goals exact absurd h (by decide)

/-- Settles O43: the link, then the fault. -/
theorem unservedVectorFaults : Obligations.UnservedVectorFaults := by
  intro v s h
  have same : exec (.trap v) s = .next (s.link.raise .unknownTrapVector v) :=
    congrArg Host.Outcome.next (s.link.trapDispatch_of_unserved h)
  exact ⟨_, same, rfl, rfl, rfl, rfl, s.link_reg_r7, s.link_keepsRegs, rfl, rfl, fun _ => rfl, ⟨rfl, rfl⟩, rfl, rfl,
    rfl⟩

/-- Settles O44: the link, then GETC's question. -/
theorem getcTakesACharacterOrHolds : Obligations.GetcTakesACharacterOrHolds := by
  intro s
  have others : KeepsRegs [.r0, .r7] s s.link.tryGetc := keepsRegs_of_link fun r hr => s.link.tryGetc_reg hr
  refine ⟨s.link.tryGetc, rfl, (s.link.tryGetc_reg (by decide)).trans s.link_reg_r7, by simp [KeepsUnderTrap],
    by simp, fun a => congrArg (Memory.get · a) s.link.tryGetc_mem, by simp, fun c rest ask => ?_, fun rest ask => ?_⟩
  · rw [State.tryGetc_of_some (s := s.link) ask] at others ⊢
    exact ⟨rfl, rfl, rfl, others⟩
  · rw [State.tryGetc_of_none (s := s.link) ask]
    exact ⟨rfl, rfl, s.link_keepsRegs⟩

/-- Settles O46: the link, the prompt, then IN's question. -/
theorem inPromptsThenEchoesOrHolds : Obligations.InPromptsThenEchoesOrHolds := by
  intro s
  let prompted := s.link.emit s.config.inPrompt
  have others : KeepsRegs [.r0, .r7] s prompted.tryIn := keepsRegs_of_link fun r hr => prompted.tryIn_reg hr
  refine ⟨prompted.tryIn, rfl, (prompted.tryIn_reg (by decide)).trans s.link_reg_r7, by simp [KeepsUnderTrap, prompted],
    by simp [prompted], fun a => congrArg (Memory.get · a) prompted.tryIn_mem, fun c rest ask => ?_, fun rest ask => ?_⟩
  · rw [State.tryIn_of_some (s := prompted) ask] at others ⊢
    exact ⟨rfl, rfl, rfl, rfl, others⟩
  · rw [State.tryIn_of_none (s := prompted) ask]
    exact ⟨rfl, rfl, rfl, s.link_keepsRegs⟩

/-- Settles O45: the link, then the low byte of R0, which is not the register linked. -/
theorem outEmitsTheLowByteOfR0 : Obligations.OutEmitsTheLowByteOfR0 := fun s =>
  ⟨s.link.emit [lowByte (s.reg .r0)], rfl, rfl, s.link_reg_r7, s.link_keepsRegs, rfl, rfl, fun _ => rfl, rfl,
    rfl, rfl, rfl, rfl, rfl⟩

/-- Settles O50: the link, the notice, then HALTED. -/
theorem haltWritesTheNoticeAndHalts : Obligations.HaltWritesTheNoticeAndHalts := fun s =>
  ⟨s.link.serviceHalt, rfl, rfl, rfl, s.link_reg_r7, s.link_keepsRegs, ⟨rfl, rfl, rfl, rfl, rfl⟩, fun _ => rfl, rfl,
    rfl⟩

end Sys2Proof.Machine
end

section
/-! Short statements: the reset state, E2 and E5 of the spec's properties, the flags as a mask, and JSRR (R26, R29, R45, R120,
R131 to R133). -/

namespace Sys2Proof.Machine

/-- Settles O9: the two states are the same data, and the rest is read off it. -/
theorem resetIsALaunchState : Obligations.ResetIsALaunchState := ⟨rfl, rfl, rfl, rfl, rfl⟩

/-- Settles O15: both forms are the same write of the destination register. -/
theorem immediateFormMatchesPreloadedRegister : Obligations.ImmediateFormMatchesPreloadedRegister := by
  intro d a b imm5 s h
  rw [← h]
  exact ⟨rfl, rfl⟩

/-- Settles O18: three flags and eight masks. -/
theorem branchTestIsAMaskOfOneHotFlags : Obligations.BranchTestIsAMaskOfOneHotFlags := by
  intro c
  cases c <;> decide

/-- Settles O22: the base register is read after the link. -/
theorem jumpSubroutineRegisterResult : Obligations.JumpSubroutineRegisterResult := fun base s =>
  ⟨s.link.setPc (s.link.reg base), rfl, s.link_reg_r7, fun h => s.link_keepsRegs base (by simpa using h),
    fun h => h ▸ s.link_reg_r7, s.link_keepsRegs, rfl, fun _ => rfl, ⟨rfl, rfl⟩, rfl, rfl, rfl, rfl, rfl⟩

/-- Settles O23: both calls leave the link in R7, and JMP goes to what R7 holds. -/
theorem returnGoesBackToTheInstructionAfterTheCall : Obligations.ReturnGoesBackToTheInstructionAfterTheCall := by
  intro off base s t u v call kept jump
  have linked : t.reg .r7 = s.pc := by
    rcases call with call | call <;> obtain rfl := Host.Outcome.next.inj call <;> exact s.link_reg_r7
  obtain rfl : u.setPc (u.reg .r7) = v := Host.Outcome.next.inj jump
  exact kept.trans linked

end Sys2Proof.Machine
end
